-- ==== Sys2Proof/Word.lean ====
section
/-! DEFINITION. The plain words of the block: row words, wire bits, pin levels, pins and pin events
(00_scope.md R5 to R8; 10_state.md R14, R16). -/

namespace Sys2Proof

/-- A row word: one horizontal line of pixels, bit x is pixel x (10_state.md R19). -/
abbrev Row := BitVec 16

/-- The number of pixels in x (R5). -/
abbrev width : Nat := 16

/-- The number of pixels in y (R5). -/
abbrev height : Nat := 24

/-- A pin level, false is 0 (low) and true is 1 (high) (R7). -/
abbrev Level := Bool

/-- Wire bits in transmission order, first bit first (R7). -/
abbrev Bits := List Bool

/-- The four pins of the block (R14); `wr` is the source's `write` and `rd` its `read`. -/
inductive Pin where
  | cs | wr | data | rd
  deriving DecidableEq, Repr, Inhabited

/-- A pin's direction (R14). -/
inductive Direction where
  | output | input
  deriving DecidableEq, Repr, Inhabited

/-- One entry of the pin event log (R16). -/
abbrev Event := Pin × Level

/-- A coordinate pair; unbounded integers, which never wrap (R9). -/
structure Point where
  x : Int
  y : Int
  deriving DecidableEq, Repr, Inhabited

end Sys2Proof
end

