-- ==== Sys2Proof/Config.lean ====
section
/-! DEFINITION. The open parameters of the spec (00_scope.md R6): constants with no body, so that
every claim holds whatever their value (92_eei_decisions.md, "OPEN"). -/

namespace Sys2Proof

/-- `shadow_init`: the shadow frame before the first operation that writes it (R20, R130). DESIGN CHOICE, log 2. -/
opaque Config.shadowInit : Fin 24 → Row

/-- `pin_init`, levels: the level of each pin at reset (R131). DESIGN CHOICE, log 1. -/
opaque Config.pinLevelInit : Pin → Level

/-- `pin_init`, directions: the direction of each pin at reset (R131). DESIGN CHOICE, log 1. -/
opaque Config.pinDirInit : Pin → Direction

/-- Which of the colours other than `off` is the ink of the drawables (R92 fixes only that it is not `off`). DESIGN CHOICE, log 11. -/
opaque Config.inkCode : Nat

end Sys2Proof
end

