-- ==== Sys2Proof/Syntax.lean ====
section
/-! DEFINITION. The instructions: one constructor for each row of spec/opcode_table.json, the wire
frames first and then the host operations (30_encoding.md). -/

namespace Sys2Proof

/-- A colour. `Color` is an open type with one distinguished value `off`, and no rule reads a colour
but to compare it with `off` (R10); every other colour has a number here. DESIGN CHOICE, log 11. -/
inductive Color where
  | off
  | lit (code : Nat)
  deriving DecidableEq, Repr

/-- The colour every drawable draws with, never `off` (R92). -/
def Color.ink : Color := .lit Config.inkCode

/-- One component of a bounce vector, −1 or +1 (R26). -/
inductive Sign where
  | minus | plus
  deriving DecidableEq, Repr, Inhabited

/-- The bounce vector of a drawable: stored, read by no rule in scope (R26). -/
structure Bounce where
  x : Sign
  y : Sign
  deriving DecidableEq, Repr, Inhabited

/-- The `surface` reference of a drawable (R26). The block has one surface, the view onto the driver's shadow frame, and
it has no state of its own (R25). -/
inductive SurfaceRef where
  | driverFrame
  deriving DecidableEq, Repr, Inhabited

/-- A Line record (R26): `location` is its top-left anchor, `size` is derived. -/
structure LineShape where
  surface : SurfaceRef
  location : Point
  endPt : Point
  bounce : Bounce
  deriving DecidableEq, Repr

/-- A Rectangle record (R26) but for its `filled` flag, which the instruction's row gives. -/
structure RectShape where
  surface : SurfaceRef
  location : Point
  endPt : Point
  bounce : Bounce
  deriving DecidableEq, Repr

/-- A Circle record (R26): its location is `center − (radius, radius)`. -/
structure CircleShape where
  surface : SurfaceRef
  location : Point
  radius : Int
  bounce : Bounce
  deriving DecidableEq, Repr

/-- The three drawable kinds in scope (R26, R91). -/
inductive Drawable where
  | line (d : LineShape)
  | rect (d : RectShape) (filled : Bool)
  | circle (d : CircleShape)
  deriving DecidableEq, Repr

/-- The two methods of the last row of the opcode table (R99). -/
inductive DrawableCall where
  | update (d : Drawable)
  | interact (d other : Drawable)
  deriving DecidableEq, Repr

/-- The digital-I/O operations a pin group applies to each member (R60), `read` apart. -/
inductive PinOp where
  | setDirectionOutput
  | setDirectionInput
  | flushDirection
  | write (b : Level)
  | flush
  | refresh
  deriving DecidableEq, Repr

/-- The instructions, one constructor for each row of the opcode table.
The first ten are wire frames and have an encoding; the others are host calls and have none. -/
inductive Instr where
  /-- SYS_DIS (R104). -/
  | sysDis
  /-- SYS_EN (R105). -/
  | sysEn
  /-- LED_OFF (R106). -/
  | ledOff
  /-- LED_ON (R107). -/
  | ledOn
  /-- BLINK_OFF (R108). -/
  | blinkOff
  /-- MASTERMODE (R109). -/
  | masterMode
  /-- COMOPTION (R110). -/
  | comOption
  /-- SET_BRIGHTNESS l, the frame (R111). -/
  | brightnessFrame (level : BitVec 4)
  /-- CMD_UNLISTED: a command frame whose opcode is in no other row (R112). -/
  | cmdUnlisted (op : BitVec 8)
  /-- WRITE_RAM @addr words, then `residual` bits, fewer than 16 (R113, R114). -/
  | writeRam (addr : BitVec 7) (words : List Row) (residual : Bits)
  /-- pin_group.op on the members in declared order (R58, R60). -/
  | pinGroupOp (members : List Pin) (op : PinOp)
  /-- pin_group.read (R59). -/
  | pinGroupRead (members : List Pin)
  /-- begin (R61). -/
  | beginTxn
  /-- shift_bits(n, v) (R62); v may lie outside UInt16 and is then refused (X4). -/
  | shiftBits (n v : Int)
  /-- end (R67). -/
  | endTxn
  /-- cmd(op) (R71); op may lie outside UInt8 and is then refused (X1). -/
  | cmd (op : Int)
  /-- initialize() (R72). -/
  | initDriver
  /-- shutdown_leds() (R73). -/
  | shutdownLeds
  /-- shutdown() (R74). -/
  | shutdown
  /-- set_brightness(level) (R75). -/
  | setBrightness (level : Int)
  /-- construct_driver(pins) (R76); the pins are the four pins of the block. -/
  | constructDriver
  /-- clear() (R78). -/
  | clear
  /-- fill() (R79). -/
  | fill
  /-- set_pixel(x, y) (R80). -/
  | setPixel (x y : Int)
  /-- clear_pixel(x, y) (R81). -/
  | clearPixel (x y : Int)
  /-- flush() (R82). -/
  | flush
  /-- replace_frame(w) (R83); a w of another length than 24 is refused (X2). -/
  | replaceFrame (w : List Row)
  /-- surface.init() (R85). -/
  | surfaceInit
  /-- surface.write(pixel, color) (R87). -/
  | surfaceWrite (p : Point) (c : Color)
  /-- surface.flush() (R88). -/
  | surfaceFlush
  /-- surface.clear() (R89). -/
  | surfaceClear
  /-- Line.draw() (R94). -/
  | lineDraw (d : LineShape)
  /-- Rectangle.draw(), unfilled (R95). -/
  | rectDraw (d : RectShape)
  /-- Rectangle.draw(), filled (R96). -/
  | rectFill (d : RectShape)
  /-- Circle.draw() (R98). -/
  | circleDraw (d : CircleShape)
  /-- update() and interact(other) of line, rectangle and circle (R99). -/
  | drawableCall (c : DrawableCall)
  deriving DecidableEq, Repr

end Sys2Proof
end

