-- ==== Sys2Proof/Machine/State.lean ====
section
/-! DEFINITION. The state of the block and of the spec's receiver model (10_state.md), its value at reset
(70_reset_and_hazards.md R130 to R132), and the reasons a step can stop (60_exceptions.md R120). -/

namespace Sys2Proof.Machine

/-- A receiver field: "Each is either a known value or `unknown`" (R23). `unknown` is the `?` of R8: any
value, under no law (log 3). -/
inductive Known (α : Type) where
  | known (v : α)
  | unknown
  deriving DecidableEq, Repr

/-- The current level of each pin (R14). -/
structure PinLevels where
  cs : Level
  wr : Level
  data : Level
  rd : Level
  deriving DecidableEq, Repr

/-- The direction of each pin (R14). -/
structure PinDirs where
  cs : Direction
  wr : Direction
  data : Direction
  rd : Direction
  deriving DecidableEq, Repr

/-- The transaction state (R17). -/
inductive Txn where
  | idle | active
  deriving DecidableEq, Repr

/-- `dev.blink` (R23). -/
inductive Blink where
  | off | on
  deriving DecidableEq, Repr

/-- `dev.clock_mode` (R23). -/
inductive ClockMode where
  | master | other
  deriving DecidableEq, Repr

/-- The fields of the receiver model (R23, R24). -/
structure Device where
  sysEn : Known Bool
  ledOn : Known Bool
  blink : Known Blink
  clockMode : Known ClockMode
  comOption : Known (BitVec 8)
  brightness : Known (BitVec 4)
  /-- one 16-bit word per row -/
  ram : Vector (Known Row) 24
  /-- the auto-incrementing RAM address, or none outside a RAM-write frame -/
  ptr : Option Nat
  deriving DecidableEq, Repr

/-- `device_init`: every field unknown, no pointer (R132). -/
def Device.init : Device where
  sysEn := .unknown
  ledOn := .unknown
  blink := .unknown
  clockMode := .unknown
  comOption := .unknown
  brightness := .unknown
  ram := Vector.replicate 24 .unknown
  ptr := none

/-- Receiver refusals X5 to X8, with what R120 records. They leave the outcome of the step normal (R119). -/
inductive RxRefusal where
  /-- X5: the frame's ID is neither 100 nor 101. -/
  | refRxUnknownId (frame : Bits)
  /-- X6: a command frame longer than 12 bits. -/
  | refRxMultiCommand (frame : Bits)
  /-- X7: a command frame whose trailing bit is 1. -/
  | refRxTrailingBit (frame : Bits)
  /-- X8: a RAM write past word 23. -/
  | refRxRamOverflow (addr : Nat)
  deriving DecidableEq, Repr

/-- The receiver model: defined, or undefined from a refused frame on (R116), or undefined because a
run's first transaction began without the boot requirement (R133; log 7). -/
inductive Receiver where
  | defined (dev : Device)
  | refused (why : RxRefusal)
  | unbooted
  deriving DecidableEq, Repr

/-- Where a run stands with the boot requirement, "all four pins are outputs and `cs` is high before the first
transaction" (R133, spec decision D10; log 7). -/
inductive Boot where
  /-- no transaction has begun -/
  | waiting
  /-- pin-group writes have opened a frame that holds no bit yet; `ok` says whether the requirement was met just before -/
  | opening (ok : Bool)
  /-- the first transaction has begun: the receiver is undefined if the requirement was not met then -/
  | decided
  deriving DecidableEq, Repr

/-- One entry of the host's program: a host call, or a wire frame given by its bits (log 4). -/
inductive HostCall where
  | call (i : Instr)
  | frame (bits : Bits)
  deriving DecidableEq, Repr

/-- The pins and what their events have told the receiver. -/
structure Wire where
  levels : PinLevels
  /-- the pin event log (R16), newest event first; `State.events` reads it in log order -/
  log : List Event
  /-- the bits latched so far in the open wire frame (R43, R44), newest bit first; none when no frame is open -/
  openBits : Option Bits
  /-- the receiver model (R23, R24, R116) -/
  rx : Receiver
  deriving DecidableEq, Repr

/-- The whole state. `boot`, `pending` and `readOut` are the model's own fields (log 7, log 4, log 9). -/
structure State where
  wire : Wire
  dirs : PinDirs
  txn : Txn
  /-- whether the run's first transaction has begun (R133) -/
  boot : Boot
  /-- the shadow frame, row y at index y (R18) -/
  frame : Vector Row 24
  /-- the host's calls still to be made, next first -/
  pending : List HostCall
  /-- what the last `pin_group.read` returned (R59) -/
  readOut : Option Level
  deriving DecidableEq, Repr

/-- The levels of the pins (R14). -/
abbrev State.levels (s : State) : PinLevels := s.wire.levels

/-- The receiver model (R23, R24, R116). -/
abbrev State.rx (s : State) : Receiver := s.wire.rx

/-- Why a step faults (R119, R120). A faulted state is the one before the step: every check comes before
the operation's first write (R119; log 13). -/
inductive Fault where
  /-- F1: `BeginTxn` while `txn = Active` (R61, R69); raised by `begin` and every operation that emits a frame; records the operation called. Safe: the machine stops. -/
  | nestedTransaction (op : Instr)
  /-- F2: `EndTxn` while `txn = Idle` (R67); raised by `end`. Safe: the machine stops. -/
  | endWithoutBegin
  /-- F3: `ShiftBits` while `txn = Idle` (R62); raised by `shift_bits`; records n and v. Safe: the machine stops. -/
  | shiftOutsideTransaction (n : Int) (v : Row)
  /-- F4: `ShiftBits(n, v)` with n outside 0..16 (R66); raised by `shift_bits`; records n. Safe: the machine stops. -/
  | shiftWidthOutOfRange (n : Int)
  deriving DecidableEq, Repr

/-- Why a step is refused (R119, R120): X1 to X4, checked on the operands before the step begins (R122). -/
inductive Refusal where
  /-- The instruction has no meaning in this model yet; raised by `exec` alone. Safe: the machine stops. -/
  | notModelled (mnemonic : String)
  /-- X1: `cmd(op)` with op not an 8-bit value (R71); records op. Safe: the machine stops. -/
  | refOpcodeWidth (op : Int)
  /-- X2: `replace_frame(w)` with length(w) ≠ 24 (R83); records the length. Safe: the machine stops. -/
  | refFrameLength (length : Nat)
  /-- X3: a drawable with negative size or radius (R91); records the drawable. Safe: the machine stops. -/
  | refIllFormedDrawable (d : Drawable)
  /-- X4: `ShiftBits(n, v)` with v not a `UInt16` (R62); records v. Safe: the machine stops. -/
  | refShiftValueWidth (v : Int)
  deriving DecidableEq, Repr

/-- What a step and a meaning answer. -/
abbrev Result := Host.Outcome State Fault Refusal

/-- The state at the driver's construction, before any call (R130 to R132). The parameters `pin_init` and
`shadow_init` stay open (log 1, log 2); no program is loaded (log 4). -/
def State.reset : State where
  wire := {
    levels := ⟨Config.pinLevelInit .cs, Config.pinLevelInit .wr, Config.pinLevelInit .data, Config.pinLevelInit .rd⟩
    log := []
    openBits := none
    rx := .defined Device.init }
  dirs := ⟨Config.pinDirInit .cs, Config.pinDirInit .wr, Config.pinDirInit .data, Config.pinDirInit .rd⟩
  txn := .idle
  boot := .waiting
  frame := Vector.ofFn Config.shadowInit
  pending := []
  readOut := none

end Sys2Proof.Machine
end

