-- ==== Sys2Proof/Machine/Flags.lean ====
section
/-! DEFINITION. The block has no flags, condition codes or predicates, and no operation returns a status (10_state.md
R22, 60_exceptions.md R118): there is no flag computation to define. Every operation rule's "Flags" line says
"none". -/
end

