-- ==== Sys2Proof/WellFormed.lean ====
section
/-! DEFINITION. Well-formed instructions: every operand lies in the domain its rule gives it. -/

namespace Sys2Proof

/-- `size` of a Line (R26). -/
def LineShape.size (d : LineShape) : Point := ⟨d.endPt.x - d.location.x, d.endPt.y - d.location.y⟩

/-- `size` of a Rectangle (R26). -/
def RectShape.size (d : RectShape) : Point := ⟨d.endPt.x - d.location.x, d.endPt.y - d.location.y⟩

/-- `size` of a Circle (R26). -/
def CircleShape.size (d : CircleShape) : Point := ⟨2 * d.radius, 2 * d.radius⟩

/-- "size is non-negative on both axes" (R26). -/
def Point.nonNegative (p : Point) : Bool := decide (0 ≤ p.x) && decide (0 ≤ p.y)

/-- A Line is accepted at construction (R91). -/
def LineShape.wf (d : LineShape) : Bool := d.size.nonNegative

/-- A Rectangle is accepted at construction (R91). -/
def RectShape.wf (d : RectShape) : Bool := d.size.nonNegative

/-- A Circle is accepted at construction (R91). -/
def CircleShape.wf (d : CircleShape) : Bool := decide (0 ≤ d.radius)

/-- A drawable is accepted at construction (R91). -/
def Drawable.wf : Drawable → Bool
  | .line d => d.wf
  | .rect d _ => d.wf
  | .circle d => d.wf

/-- Every drawable a call names is accepted at construction (R91). -/
def DrawableCall.wf : DrawableCall → Bool
  | .update d => d.wf
  | .interact d other => d.wf && other.wf

/-- The opcode is in the opcode map of R49. -/
def listedOpcode (op : BitVec 8) : Bool :=
  op == 0x00 || op == 0x01 || op == 0x02 || op == 0x03 || op == 0x08 || op == 0x18 || op == 0x24
    || op.extractLsb' 4 4 == 0xA

/-- Every operand lies in its domain: an unlisted opcode is not in the map (R112), fewer than 16 residual
bits (R113), a pin group is a set (R27), a `UInt8` opcode (R71), a `UInt16` shift value (R62),
24 words (R83), drawables as R91 wants them. A shift count outside 0..16 is not ill formed: it faults (R66). -/
def Instr.wf : Instr → Bool
  | .cmdUnlisted op => !listedOpcode op
  | .writeRam _ _ residual => decide (residual.length < 16)
  | .pinGroupOp members _ => decide members.Nodup
  | .pinGroupRead members => decide members.Nodup
  | .shiftBits _ v => decide (0 ≤ v) && decide (v < 65536)
  | .cmd op => decide (0 ≤ op) && decide (op < 256)
  | .replaceFrame w => w.length == 24
  | .lineDraw d => d.wf
  | .rectDraw d => d.wf
  | .rectFill d => d.wf
  | .circleDraw d => d.wf
  | .drawableCall c => c.wf
  | .sysDis | .sysEn | .ledOff | .ledOn | .blinkOff | .masterMode | .comOption => true
  | .brightnessFrame _ | .beginTxn | .endTxn | .initDriver | .shutdownLeds | .shutdown => true
  | .setBrightness _ | .constructDriver | .clear | .fill | .setPixel _ _ | .clearPixel _ _ | .flush => true
  | .surfaceInit | .surfaceWrite _ _ | .surfaceFlush | .surfaceClear => true

end Sys2Proof
end

