-- ==== Sys2Proof/Machine/Operands.lean ====
section
/-! DEFINITION. Operand forms and their checks: the refusals X1 to X4 (60_exceptions.md R120, R122) and the range
predicate of every pixel operation (42_controller_ram.md R84). -/

namespace Sys2Proof.Machine

/-- A `UInt8` opcode, or none (R71, X1). -/
def opcodeOf (op : Int) : Option (BitVec 8) :=
  if 0 ≤ op ∧ op < 256 then some (BitVec.ofNat 8 op.toNat) else none

/-- A `UInt16` shift value, or none (R62, X4). -/
def shiftValueOf (v : Int) : Option Row :=
  if 0 ≤ v ∧ v < 65536 then some (BitVec.ofNat 16 v.toNat) else none

/-- A shadow frame from a caller's buffer, or none when it has not 24 words (R83, X2). -/
def frameOf (w : List Row) : Option (Vector Row 24) :=
  if h : w.length = 24 then some ⟨w.toArray, by simpa using h⟩ else none

/-- A brightness level in 0..15, or none (R75). -/
def brightnessOf (level : Int) : Option (BitVec 4) :=
  if 0 ≤ level ∧ level ≤ 15 then some (BitVec.ofNat 4 level.toNat) else none

/-- `InRange(x, y)` (R84). -/
def inRange (x y : Int) : Bool :=
  decide (0 ≤ x) && decide (x < width) && decide (0 ≤ y) && decide (y < height)

/-- The row index of a y in 0..23, or none (R84). -/
def rowOf (y : Int) : Option (Fin 24) :=
  if h : 0 ≤ y ∧ y < 24 then some ⟨y.toNat, by omega⟩ else none

/-- WRITE_ID (R6), as the value `ShiftBits` takes. -/
abbrev writeId : Row := 0b101

/-- The first drawable of a call that breaks its invariant (R91, X3). -/
def illFormedIn : DrawableCall → Option Drawable
  | .update d => if d.wf then none else some d
  | .interact d other => if d.wf then (if other.wf then none else some other) else some d

/-- A step on a drawable that was accepted at construction; otherwise the refusal X3 (R91). -/
def withDrawable (d : Drawable) (r : Result) : Result :=
  if d.wf then r else .refused (.refIllFormedDrawable d)

end Sys2Proof.Machine
end

