-- ==== Sys2Proof/Decode.lean ====
section
/-! DEFINITION. Decoding wire frames, total on any bit string and rejecting by name, and the encoder
(30_encoding.md R43 to R55). Host operations have no bit encoding (30_encoding.md, opening). -/

namespace Sys2Proof

/-- The value of a field: its first bit is the most significant (R45). -/
def fieldValue (b : Bits) : Nat := b.foldl (fun acc x => 2 * acc + x.toNat) 0

/-- The field of width `n` held in the bits `b` (R45). -/
def fieldWord (n : Nat) (b : Bits) : BitVec n := BitVec.ofNat n (fieldValue b)

/-- The low `n` bits of `v`, most significant first: v[n−1], …, v[0] (R31, R62). -/
def bitsMsb {w : Nat} : Nat → BitVec w → Bits
  | 0, _ => []
  | n + 1, v => v.getLsbD n :: bitsMsb n v

/-- The first `k` whole 16-bit words of a payload (R113: `field(payload, 16·j, 16)`). -/
def payloadWords : Nat → Bits → List Row
  | 0, _ => []
  | k + 1, b => fieldWord 16 (b.take 16) :: payloadWords k (b.drop 16)

/-- Why a bit string is no frame of the opcode table (R46 to R48, R53 to R55). -/
inductive DecodeError where
  /-- no bits at all -/
  | emptyFrame
  /-- fewer than the 3 bits of an ID -/
  | truncatedId
  /-- an ID other than 100 and 101 -/
  | unknownId
  /-- a command of fewer than 12 bits -/
  | truncatedCommand
  /-- a command of more than 12 bits -/
  | overlongCommand
  /-- a command whose trailing bit is 1 -/
  | trailingBit
  /-- a RAM write of fewer than 10 bits -/
  | truncatedHeader
  deriving DecidableEq, Repr

/-- The row of the opcode map for an 8-bit opcode (R49, R50). -/
def decodeOpcode (op : BitVec 8) : Instr :=
  if op = 0x00 then .sysDis
  else if op = 0x01 then .sysEn
  else if op = 0x02 then .ledOff
  else if op = 0x03 then .ledOn
  else if op = 0x08 then .blinkOff
  else if op = 0x18 then .masterMode
  else if op = 0x24 then .comOption
  else if op.extractLsb' 4 4 = 0xA then .brightnessFrame (op.extractLsb' 0 4)
  else .cmdUnlisted op

/-- A command frame after its ID: 8 opcode bits and the trailing 0 (R46, R54). -/
def decodeCommand (rest : Bits) : Except DecodeError Instr :=
  if rest.length < 9 then .error .truncatedCommand
  else if 9 < rest.length then .error .overlongCommand
  else if rest.getLastD false then .error .trailingBit
  else .ok (decodeOpcode (fieldWord 8 (rest.take 8)))

/-- A RAM-write frame after its ID: 7 address bits, whole words, residual bits (R47, R113). -/
def decodeRamWrite (rest : Bits) : Except DecodeError Instr :=
  if rest.length < 7 then .error .truncatedHeader
  else .ok (.writeRam (fieldWord 7 (rest.take 7)) (payloadWords ((rest.length - 7) / 16) (rest.drop 7))
    (rest.drop (7 + 16 * ((rest.length - 7) / 16))))

/-- The instruction a wire frame is, from its bits in transmission order (R48). -/
def decode : Bits → Except DecodeError Instr
  | [] => .error .emptyFrame
  | [_] | [_, _] => .error .truncatedId
  | true :: false :: false :: rest => decodeCommand rest
  | true :: false :: true :: rest => decodeRamWrite rest
  | _ :: _ :: _ :: _ => .error .unknownId

/-- The 12-bit command word `W = 0x800 | (opcode << 1)` (R46). -/
def commandWord (op : BitVec 8) : BitVec 12 := 0x800#12 ||| (op.zeroExtend 12 <<< 1)

/-- The bits of `CMD op` (R46, R49). -/
def commandBits (op : BitVec 8) : Bits := bitsMsb 12 (commandWord op)

/-- The brightness opcode `0xA0 | level` (R50). -/
def brightnessOpcode (level : BitVec 4) : BitVec 8 := 0xA0#8 ||| level.zeroExtend 8

/-- The 10-bit header word `0x280 | addr` (R47). -/
def headerWord (addr : BitVec 7) : BitVec 10 := 0x280#10 ||| addr.zeroExtend 10

/-- The bits of `WRAM @addr words`, then the residual bits (R47, R113). -/
def ramWriteBits (addr : BitVec 7) (words : List Row) (residual : Bits) : Bits :=
  bitsMsb 10 (headerWord addr) ++ words.flatMap (bitsMsb 16) ++ residual

/-- The bits of an instruction that is a wire frame; a host operation has none (30_encoding.md, opening). -/
def encode : Instr → Option Bits
  | .sysDis => some (commandBits 0x00)
  | .sysEn => some (commandBits 0x01)
  | .ledOff => some (commandBits 0x02)
  | .ledOn => some (commandBits 0x03)
  | .blinkOff => some (commandBits 0x08)
  | .masterMode => some (commandBits 0x18)
  | .comOption => some (commandBits 0x24)
  | .brightnessFrame level => some (commandBits (brightnessOpcode level))
  | .cmdUnlisted op => some (commandBits op)
  | .writeRam addr words residual => some (ramWriteBits addr words residual)
  | .pinGroupOp _ _ | .pinGroupRead _ | .beginTxn | .shiftBits _ _ | .endTxn => none
  | .cmd _ | .initDriver | .shutdownLeds | .shutdown | .setBrightness _ | .constructDriver => none
  | .clear | .fill | .setPixel _ _ | .clearPixel _ _ | .flush | .replaceFrame _ => none
  | .surfaceInit | .surfaceWrite _ _ | .surfaceFlush | .surfaceClear => none
  | .lineDraw _ | .rectDraw _ | .rectFill _ | .circleDraw _ | .drawableCall _ => none

/-- `k` data words held above a table word's first 16 bits, the first lowest (log 6). -/
def tableWords : Nat → Nat → List Row
  | 0, _ => []
  | k + 1, w => BitVec.ofNat 16 w :: tableWords k (w / 65536)

/-- The frame a number of the opcode table stands for. A RAM-write row is its 10-bit header (bits 9..7 are 101),
then one data word for each 16 bits that `nbits` counts above the first 16; any other number below 4096 is a
12-bit word; a number with bits beyond these is no frame (log 6). The bits are laid out as they travel,
most significant first (R31). -/
def tableFrame (nbits w : Nat) : Bits :=
  let k := (nbits - 16) / 16
  if w % 65536 / 128 = 5 ∧ w < 65536 * 65536 ^ k then
    bitsMsb 10 (BitVec.ofNat 10 w) ++ (tableWords k (w / 65536)).flatMap (bitsMsb 16)
  else if w < 4096 then bitsMsb 12 (BitVec.ofNat 12 w)
  else []

/-- What the decoder reads from a row's word as the opcode table numbers its bits (log 6). -/
def decodeTableWord (nbits w : Nat) : Option Instr :=
  match decode (tableFrame nbits w) with
  | .ok i => some i
  | .error _ => none

end Sys2Proof
end

