-- ==== Sys2Proof/Machine/Receiver.lean ====
section
/-! DEFINITION. The receiver model: what the device makes of each closed wire frame (45_wire_frames.md). -/

namespace Sys2Proof.Machine

/-- `HavocControl()`: every control field unknown (R103). -/
def havocControl (d : Device) : Device :=
  { d with sysEn := .unknown, ledOn := .unknown, blink := .unknown, clockMode := .unknown,
           comOption := .unknown, brightness := .unknown }

/-- `HavocRam()`: every RAM word unknown (R103). -/
def havocRam (d : Device) : Device := { d with ram := Vector.replicate 24 .unknown }

/-- `HavocAll()` (R103). -/
def havocAll (d : Device) : Device := havocRam (havocControl d)

/-- The guard of R112 and R113: `v` if `dev.sys_en` is known to be true, else unknown. -/
def guarded {α : Type} (d : Device) (v : α) : Known α :=
  if d.sysEn = .known true then .known v else .unknown

/-- SYS_DIS: the system is disabled and the RAM becomes unknown (R104, R117). -/
def rxSysDis (d : Device) : Device := havocRam { d with sysEn := .known false }

/-- SYS_EN (R105). -/
def rxSysEn (d : Device) : Device := { d with sysEn := .known true }

/-- LED_OFF (R106, R112). -/
def rxLedOff (d : Device) : Device := { d with ledOn := guarded d false }

/-- LED_ON (R107, R112). -/
def rxLedOn (d : Device) : Device := { d with ledOn := guarded d true }

/-- BLINK_OFF (R108, R112). -/
def rxBlinkOff (d : Device) : Device := { d with blink := guarded d .off }

/-- MASTERMODE (R109, R112). -/
def rxMasterMode (d : Device) : Device := { d with clockMode := guarded d .master }

/-- COMOPTION records its opcode (R110, R112). -/
def rxComOption (d : Device) : Device := { d with comOption := guarded d 0x24 }

/-- SET_BRIGHTNESS (R111, R112). -/
def rxBrightness (level : BitVec 4) (d : Device) : Device := { d with brightness := guarded d level }

/-- `RxCommand(op)` (R112): the opcode map, and HavocAll for an opcode outside it. -/
def rxCommand (op : BitVec 8) (d : Device) : Device :=
  if op = 0x00 then rxSysDis d
  else if op = 0x01 then rxSysEn d
  else if op = 0x02 then rxLedOff d
  else if op = 0x03 then rxLedOn d
  else if op = 0x08 then rxBlinkOff d
  else if op = 0x18 then rxMasterMode d
  else if op = 0x24 then rxComOption d
  else if op.extractLsb' 4 4 = 0xA then rxBrightness (op.extractLsb' 0 4) d
  else havocAll d

/-- One word of `RxWrite` (R113): it lands at the pointer, which then moves one row; a word past row 23 is
refused. With no pointer there is nowhere to write; `rxWrite` sets one first. -/
def rxWord (w : Row) (d : Device) : Except RxRefusal Device :=
  match d.ptr with
  | none => .ok d
  | some p =>
    if 23 < p then .error (.refRxRamOverflow p)
    else .ok { d with ram := d.ram.setIfInBounds p (guarded d w), ptr := some (p + 1) }

/-- The word loop of `RxWrite` (R113). -/
def rxWords : List Row → Device → Except RxRefusal Device
  | [], d => .ok d
  | w :: ws, d =>
    match rxWord w d with
    | .error e => .error e
    | .ok d' => rxWords ws d'

/-- A partial trailing word makes the RAM word at the pointer unknown, if there is one (R114). -/
def rxPartial (residual : Bits) (d : Device) : Device :=
  match d.ptr with
  | none => d
  | some p => if residual = [] then d else { d with ram := d.ram.setIfInBounds p .unknown }

/-- `RxWrite(a, payload)`, the payload cut into whole words and residual bits (R113). -/
def rxWrite (addr : BitVec 7) (words : List Row) (residual : Bits) (d : Device) : Receiver :=
  match rxWords words { d with ptr := some addr.toNat } with
  | .error e => .refused e
  | .ok d' => .defined { rxPartial residual d' with ptr := none }

/-- `Rx(bits)`: one closed frame at a defined receiver (R103), its checks in the order written there. -/
def rxFrame (bits : Bits) (d : Device) : Receiver :=
  let n := bits.length
  let payload := bits.drop 10
  if n = 0 then .defined d
  else if n < 3 then .defined (havocAll d)
  else if bits.take 3 = [true, false, false] then
    if n < 12 then .defined (havocControl d)
    else if 12 < n then .refused (.refRxMultiCommand bits)
    else if bits.getLastD false then .refused (.refRxTrailingBit bits)
    else .defined (rxCommand (fieldWord 8 ((bits.drop 3).take 8)) d)
  else if bits.take 3 = [true, false, true] then
    if n < 10 then .defined (havocRam d)
    else rxWrite (fieldWord 7 ((bits.drop 3).take 7)) (payloadWords (payload.length / 16) payload)
      (payload.drop (16 * (payload.length / 16))) d
  else .refused (.refRxUnknownId bits)

/-- A closed frame at the receiver: an undefined receiver stays so (R116; log 14). -/
def Receiver.receive (bits : Bits) : Receiver → Receiver
  | .defined d => rxFrame bits d
  | .refused why => .refused why
  | .unbooted => .unbooted

/-- A run whose first transaction begins without the boot requirement leaves the receiver undefined (R133; log 7);
a refusal already recorded is kept (log 14). -/
def Receiver.unboot : Receiver → Receiver
  | .defined _ => .unbooted
  | .refused why => .refused why
  | .unbooted => .unbooted

/-- `lit(x, y)`: the panel image (R115). An undefined receiver shows nothing known (R116). -/
def Receiver.lit (r : Receiver) (x : Fin 16) (y : Fin 24) : Known Bool :=
  match r with
  | .defined d =>
    if d.sysEn = .known false ∨ d.ledOn = .known false then .known false
    else if d.sysEn = .known true ∧ d.ledOn = .known true ∧ d.blink = .known .off
        ∧ d.clockMode = .known .master ∧ d.comOption = .known 0x24 then
      match d.ram[y] with
      | .known w => .known (w.getLsbD x)
      | .unknown => .unknown
    else .unknown
  | .refused _ => .unknown
  | .unbooted => .unknown

end Sys2Proof.Machine
end

