-- ==== Sys2Proof/Machine/Wire.lean ====
section
/-! DEFINITION. From pin events to wire frames (30_encoding.md R43, R44). -/

namespace Sys2Proof.Machine

/-- The level of one pin. -/
def PinLevels.get (l : PinLevels) : Pin → Level
  | .cs => l.cs
  | .wr => l.wr
  | .data => l.data
  | .rd => l.rd

/-- One pin driven to a level, the others unchanged. -/
def PinLevels.set (l : PinLevels) (p : Pin) (v : Level) : PinLevels :=
  match p with
  | .cs => { l with cs := v }
  | .wr => { l with wr := v }
  | .data => { l with data := v }
  | .rd => { l with rd := v }

/-- The direction of one pin. -/
def PinDirs.get (d : PinDirs) : Pin → Direction
  | .cs => d.cs
  | .wr => d.wr
  | .data => d.data
  | .rd => d.rd

/-- One pin's direction set, the others unchanged. -/
def PinDirs.set (d : PinDirs) (p : Pin) (v : Direction) : PinDirs :=
  match p with
  | .cs => { d with cs := v }
  | .wr => { d with wr := v }
  | .data => { d with data := v }
  | .rd => { d with rd := v }

/-- The bits of the open frame, newest first, after an event, from the levels just before it. `(cs, 0)` opens a
frame, but one that is open with `cs` already low goes on (log 8); `(cs, 1)` closes it (R43); a rising edge of
`wr` with `cs` low latches `data` (R44). -/
def nextOpen (l : PinLevels) (openBits : Option Bits) : Event → Option Bits
  | (.cs, false) => if l.cs then some [] else some (openBits.getD [])
  | (.cs, true) => none
  | (.wr, true) => if !l.wr && !l.cs then openBits.map (l.data :: ·) else openBits
  | (.wr, false) => openBits
  | (.data, _) => openBits
  | (.rd, _) => openBits

/-- The frame that an event closes, in transmission order, if it closes one (R43). -/
def closedBy (openBits : Option Bits) : Event → Option Bits
  | (.cs, true) => openBits.map List.reverse
  | (.cs, false) => none
  | (.wr, _) => none
  | (.data, _) => none
  | (.rd, _) => none

/-- What a reader of the event log alone knows: the levels, the open frame's bits (newest first), and the closed
frames (oldest first). -/
structure WireView where
  levels : PinLevels
  openBits : Option Bits
  frames : List Bits
  deriving DecidableEq, Repr

/-- The view after one more event. -/
def WireView.next (w : WireView) (e : Event) : WireView where
  levels := w.levels.set e.1 e.2
  openBits := nextOpen w.levels w.openBits e
  frames := w.frames ++ (closedBy w.openBits e).toList

/-- The view of an event log that starts from the levels `l`, with no frame open. -/
def wireView (l : PinLevels) (events : List Event) : WireView :=
  events.foldl WireView.next ⟨l, none, []⟩

/-- The frame sequence of a run: a function of the event log (R16, R43). -/
def framesOf (l : PinLevels) (events : List Event) : List Bits := (wireView l events).frames

/-- The pin event log in log order, oldest first (R16). -/
def State.events (s : State) : List Event := s.wire.log.reverse

/-- The bits latched so far in the open frame, in transmission order (R43). -/
def State.openFrame (s : State) : Option Bits := s.wire.openBits.map List.reverse

end Sys2Proof.Machine
end

