-- ==== Sys2Proof/Machine/Ops.lean ====
section
/-! DEFINITION. The shared operations over pins, transaction scope, shadow frame and the host's calls. The block takes
no exceptions: a fault transfers no control and saves nothing (60_exceptions.md R123, R124), so there is no
exception entry or return to define. -/

namespace Sys2Proof.Machine

/-- One operation after another; a fault or a refusal ends the step (R119). -/
def andThen (r : Result) (f : State → Result) : Result :=
  match r with
  | .next s => f s
  | .fault e => .fault e
  | .refused e => .refused e

/-! ## Pins -/

/-- The receiver after a pin event: a closed frame is applied when `cs` rises (R103). -/
def rxAfter (openBits : Option Bits) (e : Event) (r : Receiver) : Receiver :=
  match closedBy openBits e with
  | some bits => r.receive bits
  | none => r

/-- `PinWrite(p, v)` on the wire (R8, R15, R16): the level changes at once and the event is logged, even when the
pin already had that level. The direction of the pin plays no part (log 17). -/
def Wire.write (p : Pin) (v : Level) (w : Wire) : Wire where
  levels := w.levels.set p v
  log := (p, v) :: w.log
  openBits := nextOpen w.levels w.openBits (p, v)
  rx := rxAfter w.openBits (p, v) w.rx

/-- Boot steps 2 and 3 as a state: all four pins are outputs and `cs` is high (R133). -/
def bootMet (s : State) : Bool :=
  s.dirs.cs == .output && s.dirs.wr == .output && s.dirs.data == .output && s.dirs.rd == .output && s.levels.cs

/-- The run's first transaction begins: the receiver is undefined for the run when the boot requirement was not met
(R133, R139; log 7). -/
def decideBoot (ok : Bool) (s : State) : State :=
  { s with wire := { s.wire with rx := if ok then s.rx else s.rx.unboot }, boot := .decided }

/-- The event latches a bit into the open frame (R44). -/
def latches (l : PinLevels) (openBits : Option Bits) : Event → Bool
  | (.wr, true) => !l.wr && !l.cs && openBits.isSome
  | (.wr, false) => false
  | (.cs, _) => false
  | (.data, _) => false
  | (.rd, _) => false

/-- The boot requirement at a pin write of the host's own, before the first transaction: a frame that such writes open is
the first transaction once it holds a bit; an empty one, which the receiver does not act on, is pin setup (R103,
R133; log 7). -/
def watchBoot (e : Event) (s : State) : State :=
  match s.boot with
  | .decided => s
  | .waiting => if e = (.cs, false) then { s with boot := .opening (bootMet s) } else s
  | .opening ok =>
    if e = (.cs, true) then { s with boot := .waiting }
    else if latches s.levels s.wire.openBits e then decideBoot ok s
    else s

/-- `PinWrite(p, v)` (R8): nothing but the wire changes. -/
def pinWrite (p : Pin) (v : Level) (s : State) : State := { s with wire := s.wire.write p v }

/-- A pin's direction (R60). -/
def setDirection (p : Pin) (d : Direction) (s : State) : State := { s with dirs := s.dirs.set p d }

/-- One pin-group operation on one member (R60). `flush-direction`, `flush` and `refresh` have nothing further to
commit: pins are write-through (R15). -/
def applyPinOp (op : PinOp) (s : State) (p : Pin) : State :=
  match op with
  | .setDirectionOutput => setDirection p .output s
  | .setDirectionInput => setDirection p .input s
  | .flushDirection => s
  | .write b => pinWrite p b (watchBoot (p, b) s)
  | .flush => s
  | .refresh => s

/-- The members strictly in declared order, each complete before the next (R58). -/
def applyPinGroup (members : List Pin) (op : PinOp) (s : State) : State := members.foldl (applyPinOp op) s

/-- The logical OR of the members' levels; 0 for no members (R59; log 9). -/
def readPinGroup (members : List Pin) (s : State) : Level := members.any s.levels.get

/-! ## Transaction scope -/

/-- The boot requirement at a `begin`: it is checked at the first transaction of the run, and not again (R133, R139;
log 7). -/
def checkBoot (s : State) : State :=
  match s.boot with
  | .decided => s
  | .waiting => decideBoot (bootMet s) s
  | .opening _ => decideBoot (bootMet s) s

/-- `BeginTxn()` (R61), on behalf of the host call `op`, which F1 records (R120). -/
def beginScope (op : Instr) (s : State) : Result :=
  match s.txn with
  | .active => .fault (.nestedTransaction op)
  | .idle => .next { pinWrite .cs false (checkBoot s) with txn := .active }

/-- `BitCycle(b)`: three pin writes (R63). -/
def Wire.bitCycle (w : Wire) (b : Bool) : Wire := ((w.write .wr false).write .data b).write .wr true

/-- Bits sent one cycle each, first bit first; calls concatenate (R63, R70). -/
def sendBits (bits : Bits) (s : State) : State := { s with wire := bits.foldl Wire.bitCycle s.wire }

/-- `ShiftBits(n, v)` on a `UInt16` value (R62): F3 before F4 (R122); n = 0 sends nothing (R64); bits of v above n−1
are ignored (R65). -/
def shiftBitsOp (n : Int) (v : Row) (s : State) : Result :=
  match s.txn with
  | .idle => .fault (.shiftOutsideTransaction n v)
  | .active => if n < 0 ∨ 16 < n then .fault (.shiftWidthOutOfRange n) else .next (sendBits (bitsMsb n.toNat v) s)

/-- `EndTxn()` (R67). -/
def endScope (s : State) : Result :=
  match s.txn with
  | .idle => .fault .endWithoutBegin
  | .active => .next { pinWrite .cs true s with txn := .idle }

/-- A whole frame in a transaction of its own: `begin`, the bits, `end` (R43; log 5). -/
def sendFrame (op : Instr) (bits : Bits) (s : State) : Result :=
  andThen (beginScope op s) fun s => endScope (sendBits bits s)

/-! ## Commands -/

/-- `cmd(op)`: one 12-bit command frame (R71). -/
def sendCmd (caller : Instr) (op : BitVec 8) (s : State) : Result :=
  andThen (beginScope caller s) fun s =>
  andThen (shiftBitsOp 12 ((commandWord op).zeroExtend 16) s) endScope

/-! ## Shadow frame -/

/-- `MemRead(y, 16)` (R30). -/
def memRead (y : Fin 24) (s : State) : Row := s.frame[y]

/-- `MemWrite(y, 16, v)` (R30): only row y changes. -/
def memWrite (y : Fin 24) (v : Row) (s : State) : State := { s with frame := s.frame.set y v }

/-- The whole shadow frame replaced. -/
def setFrame (f : Vector Row 24) (s : State) : State := { s with frame := f }

/-- `WriteHeader(addr)` (R77). -/
def writeHeader (addr : BitVec 7) (s : State) : Result :=
  andThen (shiftBitsOp 3 writeId s) (shiftBitsOp 7 (addr.zeroExtend 16))

/-- The row loop of `clear`, `fill` and `flush` (R78, R79, R82): the word for row y is sent, then row y is set. -/
def sendRows (word : Row → Row) (after : Row) : List (Fin 24) → State → Result
  | [], s => .next s
  | y :: ys, s =>
    andThen (shiftBitsOp 16 (word (memRead y s)) s) fun s => sendRows word after ys (memWrite y after s)

/-- A RAM write of all 24 rows from address 0 (R47, R78, R79, R82). -/
def ramWriteOp (caller : Instr) (word : Row → Row) (after : Row) (s : State) : Result :=
  andThen (beginScope caller s) fun s =>
  andThen (writeHeader 0 s) fun s =>
  andThen (sendRows word after (List.finRange 24) s) endScope

/-- `clear()` (R78). -/
def driverClear (caller : Instr) (s : State) : Result := ramWriteOp caller (fun _ => 0x0000) 0x0000 s

/-- `fill()` (R79): the shadow frame becomes all ones as well (D8). -/
def driverFill (caller : Instr) (s : State) : Result := ramWriteOp caller (fun _ => 0xFFFF) 0xFFFF s

/-- `flush()` (R82): each row is read, sent and then zeroed. -/
def driverFlush (caller : Instr) (s : State) : Result := ramWriteOp caller id 0x0000 s

/-- `initialize()` (R72), in this order. -/
def driverInit (caller : Instr) (s : State) : Result :=
  andThen (sendCmd caller 0x01 s) fun s =>
  andThen (sendCmd caller 0x03 s) fun s =>
  andThen (sendCmd caller 0x08 s) fun s =>
  andThen (sendCmd caller 0x18 s) fun s =>
  andThen (sendCmd caller 0x24 s) (driverClear caller)

/-- `set_brightness(level)` (R75): nothing at all outside 0..15. -/
def driverBrightness (caller : Instr) (level : Int) (s : State) : Result :=
  match brightnessOf level with
  | some l => sendCmd caller (brightnessOpcode l) s
  | none => .next s

/-- One row changed by `f`, if the pixel is in range (R80, R81, R84). -/
def updatePixel (f : Row → Row) (x y : Int) (s : State) : State :=
  if inRange x y then
    match rowOf y with
    | some r => memWrite r (f (memRead r s)) s
    | none => s
  else s

/-- `set_pixel(x, y)` (R80). -/
def setPixelOp (x y : Int) (s : State) : State := updatePixel (fun w => w ||| (1#16 <<< x.toNat)) x y s

/-- `clear_pixel(x, y)` (R81). -/
def clearPixelOp (x y : Int) (s : State) : State := updatePixel (fun w => w &&& ~~~(1#16 <<< x.toNat)) x y s

/-- `surface.write(p, c)` (R87). -/
def surfaceWriteOp (p : Point) (c : Color) (s : State) : State :=
  match c with
  | .off => s
  | .lit _ => setPixelOp p.x p.y s

/-- `Plot(x, y)`: a surface write in ink (44_rasterizers.md, R92). -/
def plot (s : State) (p : Point) : State := surfaceWriteOp p Color.ink s

/-- The points a rasterizer computes, plotted one after another (R100, R102). -/
def plotAll (pts : List Point) (s : State) : State := pts.foldl plot s

/-- A drawable's points, plotted on the surface it refers to (R26, R100). -/
def drawOn (surface : SurfaceRef) (pts : List Point) (s : State) : State :=
  match surface with
  | .driverFrame => plotAll pts s

/-! ## The host's calls -/

/-- The host's next call and the state with it taken off the list, or none when the host makes no call (R21; log 4). -/
def fetch (s : State) : Option (HostCall × State) :=
  match s.pending with
  | [] => none
  | c :: rest => some (c, { s with pending := rest })

/-- A wire frame put where the next step takes its call from (log 4). -/
def pushFrame (bits : Bits) (s : State) : State := { s with pending := .frame bits :: s.pending }

/-- The instruction that a raw frame which is no row of the table is recorded under when F1 stops it: the host
opened a transaction of its own (R56, log 4). -/
def rawFrame (bits : Bits) (s : State) : Result := sendFrame .beginTxn bits s

end Sys2Proof.Machine
end

