-- ==== Sys2Proof/Machine/Commands.lean ====
section
/-! DEFINITION. The meanings of the controller driver's command operations (41_controller_commands.md). -/

namespace Sys2Proof.Machine

/-- cmd(op) (R71): an op that is not a `UInt8` is refused before the call (X1, R122). -/
def execCmd (op : Int) (s : State) : Result :=
  match opcodeOf op with
  | some b => sendCmd (.cmd op) b s
  | none => .refused (.refOpcodeWidth op)

/-- initialize() (R72). -/
def execInitDriver (s : State) : Result := driverInit .initDriver s

/-- shutdown_leds() (R73). -/
def execShutdownLeds (s : State) : Result := sendCmd .shutdownLeds 0x02 s

/-- shutdown() (R74). -/
def execShutdown (s : State) : Result := sendCmd .shutdown 0x00 s

/-- set_brightness(level) (R75). -/
def execSetBrightness (level : Int) (s : State) : Result := driverBrightness (.setBrightness level) level s

/-- construct_driver(pins) (R76, R130): no pin event; no scope is live and the shadow frame is `shadow_init` (log 10). -/
def execConstructDriver (s : State) : Result :=
  .next { setFrame (Vector.ofFn Config.shadowInit) s with txn := .idle }

end Sys2Proof.Machine
end

