-- ==== Sys2Proof/Machine/Frames.lean ====
section
/-! DEFINITION. The meanings of the wire frames (45_wire_frames.md): the host sends the frame in a transaction of its own
(30_encoding.md R43; log 5), and the receiver model applies it when `cs` rises (R103). -/

namespace Sys2Proof.Machine

/-- SYS_DIS (R104): the receiver does `rxSysDis`. -/
def execSysDis (s : State) : Result := sendFrame .sysDis (commandBits 0x00) s

/-- SYS_EN (R105): the receiver does `rxSysEn`. -/
def execSysEn (s : State) : Result := sendFrame .sysEn (commandBits 0x01) s

/-- LED_OFF (R106): the receiver does `rxLedOff`. -/
def execLedOff (s : State) : Result := sendFrame .ledOff (commandBits 0x02) s

/-- LED_ON (R107): the receiver does `rxLedOn`. -/
def execLedOn (s : State) : Result := sendFrame .ledOn (commandBits 0x03) s

/-- BLINK_OFF (R108): the receiver does `rxBlinkOff`. -/
def execBlinkOff (s : State) : Result := sendFrame .blinkOff (commandBits 0x08) s

/-- MASTERMODE (R109): the receiver does `rxMasterMode`. -/
def execMasterMode (s : State) : Result := sendFrame .masterMode (commandBits 0x18) s

/-- COMOPTION (R110): the receiver does `rxComOption`. -/
def execComOption (s : State) : Result := sendFrame .comOption (commandBits 0x24) s

/-- SET_BRIGHTNESS l (R111): the receiver does `rxBrightness l`. -/
def execBrightnessFrame (level : BitVec 4) (s : State) : Result :=
  sendFrame (.brightnessFrame level) (commandBits (brightnessOpcode level)) s

/-- CMD_UNLISTED (R112): the receiver does `havocAll`. -/
def execCmdUnlisted (op : BitVec 8) (s : State) : Result := sendFrame (.cmdUnlisted op) (commandBits op) s

/-- WRITE_RAM (R113, R114): the receiver does `rxWrite`. -/
def execWriteRam (addr : BitVec 7) (words : List Row) (residual : Bits) (s : State) : Result :=
  sendFrame (.writeRam addr words residual) (ramWriteBits addr words residual) s

end Sys2Proof.Machine
end

