-- ==== Sys2Proof/Machine/Ram.lean ====
section
/-! DEFINITION. The meanings of the controller driver's RAM-write and shadow-frame operations (42_controller_ram.md). -/

namespace Sys2Proof.Machine

/-- clear() (R78). -/
def execClear (s : State) : Result := driverClear .clear s

/-- fill() (R79). -/
def execFill (s : State) : Result := driverFill .fill s

/-- set_pixel(x, y) (R80). -/
def execSetPixel (x y : Int) (s : State) : Result := .next (setPixelOp x y s)

/-- clear_pixel(x, y) (R81). -/
def execClearPixel (x y : Int) (s : State) : Result := .next (clearPixelOp x y s)

/-- flush() (R82). -/
def execFlush (s : State) : Result := driverFlush .flush s

/-- replace_frame(w) (R83): any length but 24 is refused (X2). -/
def execReplaceFrame (w : List Row) (s : State) : Result :=
  match frameOf w with
  | some f => .next (setFrame f s)
  | none => .refused (.refFrameLength w.length)

end Sys2Proof.Machine
end

