-- ==== Sys2Proof/Machine/Raster.lean ====
section
/-! DEFINITION. The line, rectangle and circle rasterizers and the meanings of the drawables' operations
(44_rasterizers.md). A rasterizer computes the list of points it plots, in order, on unbounded integers; drawing
plots them one after another. -/

namespace Sys2Proof.Machine

/-- What `RasterLine` computes before its loop: the far endpoint, the two distances and the two directions (R93). -/
structure LineSetup where
  x1 : Int
  y1 : Int
  dx : Int
  dy : Int
  sx : Int
  sy : Int
  deriving DecidableEq, Repr

/-- The values before the loop of `RasterLine` (R93); `dy` is not positive. -/
def lineSetup (p0 p1 : Point) : LineSetup where
  x1 := p1.x
  y1 := p1.y
  dx := (p1.x - p0.x).natAbs
  dy := -(p1.y - p0.y).natAbs
  sx := if p0.x < p1.x then 1 else -1
  sy := if p0.y < p1.y then 1 else -1

/-- The loop of `RasterLine` (R93): plot, stop at the far endpoint, else step x, y or both. At most `n` steps are
made after the first plot; R93 says how many are (log 15). -/
def lineLoop (c : LineSetup) : Nat → Point → Int → List Point
  | 0, p, _ => [p]
  | n + 1, p, err =>
    if p.x = c.x1 ∧ p.y = c.y1 then [p]
    else
      let stepX := decide (2 * err ≥ c.dy)
      let stepY := decide (2 * err ≤ c.dx)
      p :: lineLoop c n
        ⟨if stepX then p.x + c.sx else p.x, if stepY then p.y + c.sy else p.y⟩
        (err + (if stepX then c.dy else 0) + (if stepY then c.dx else 0))

/-- The number of steps a line takes: max(|x1−x0|, |y1−y0|) (R93, R101). -/
def lineSteps (p0 p1 : Point) : Nat := max (p1.x - p0.x).natAbs (p1.y - p0.y).natAbs

/-- The points `RasterLine(p0, p1)` plots, in order (R93). -/
def linePoints (p0 p1 : Point) : List Point :=
  lineLoop (lineSetup p0 p1) (lineSteps p0 p1) p0 ((lineSetup p0 p1).dx + (lineSetup p0 p1).dy)

/-- The integers a, a+1, …, b; none when b < a. -/
def intRange (a b : Int) : List Int := (List.range (b + 1 - a).toNat).map fun (i : Nat) => a + i

/-- The points of an unfilled rectangle: top, left, bottom and right edge (R95). -/
def rectEdgePoints (d : RectShape) : List Point :=
  linePoints ⟨d.location.x, d.location.y⟩ ⟨d.endPt.x, d.location.y⟩
    ++ linePoints ⟨d.location.x, d.location.y⟩ ⟨d.location.x, d.endPt.y⟩
    ++ linePoints ⟨d.location.x, d.endPt.y⟩ ⟨d.endPt.x, d.endPt.y⟩
    ++ linePoints ⟨d.endPt.x, d.location.y⟩ ⟨d.endPt.x, d.endPt.y⟩

/-- The points of a filled rectangle, row by row, both bounds inclusive (R96). -/
def rectFillPoints (d : RectShape) : List Point :=
  (intRange d.location.y d.endPt.y).flatMap fun y => (intRange d.location.x d.endPt.x).map fun x => ⟨x, y⟩

/-- The eight symmetric points of one step of `RasterCircle`, in the order of R97. -/
def circleOctets (c : Point) (x y : Int) : List Point :=
  [⟨c.x + x, c.y + y⟩, ⟨c.x - x, c.y + y⟩, ⟨c.x + x, c.y - y⟩, ⟨c.x - x, c.y - y⟩,
   ⟨c.x + y, c.y + x⟩, ⟨c.x - y, c.y + x⟩, ⟨c.x + y, c.y - x⟩, ⟨c.x - y, c.y - x⟩]

/-- The loop of `RasterCircle` (R97); x rises at every step and starts r below y, so at most r steps are made
(log 15). -/
def circleLoop (c : Point) : Nat → (f ddx ddy x y : Int) → List Point
  | 0, _, _, _, _, _ => []
  | n + 1, f, ddx, ddy, x, y =>
    if x < y then
      let down := decide (f ≥ 0)
      let y' := if down then y - 1 else y
      let ddy' := if down then ddy + 2 else ddy
      let f' := if down then f + ddy' else f
      circleOctets c (x + 1) y' ++ circleLoop c n (f' + (ddx + 2)) (ddx + 2) ddy' (x + 1) y'
    else []

/-- The points `RasterCircle(c, r)` plots, in order: the four axis points, then the loop (R97). -/
def circlePoints (c : Point) (r : Int) : List Point :=
  [⟨c.x, c.y + r⟩, ⟨c.x, c.y - r⟩, ⟨c.x + r, c.y⟩, ⟨c.x - r, c.y⟩]
    ++ circleLoop c r.toNat (1 - r) 1 (-2 * r) 0 r

/-- The centre of a Circle record: `location + (r, r)` (R98). -/
def circleCentre (d : CircleShape) : Point := ⟨d.location.x + d.radius, d.location.y + d.radius⟩

/-- Line.draw() (R94). -/
def execLineDraw (d : LineShape) (s : State) : Result :=
  withDrawable (.line d) (.next (drawOn d.surface (linePoints d.location d.endPt) s))

/-- Rectangle.draw(), unfilled (R95). -/
def execRectDraw (d : RectShape) (s : State) : Result :=
  withDrawable (.rect d false) (.next (drawOn d.surface (rectEdgePoints d) s))

/-- Rectangle.draw(), filled (R96). -/
def execRectFill (d : RectShape) (s : State) : Result :=
  withDrawable (.rect d true) (.next (drawOn d.surface (rectFillPoints d) s))

/-- Circle.draw() (R98). -/
def execCircleDraw (d : CircleShape) (s : State) : Result :=
  withDrawable (.circle d) (.next (drawOn d.surface (circlePoints (circleCentre d) d.radius) s))

/-- update() and interact(other) do nothing (R99), on drawables that were accepted at construction (R91). -/
def execDrawableCall (c : DrawableCall) (s : State) : Result :=
  match illFormedIn c with
  | none => .next s
  | some d => .refused (.refIllFormedDrawable d)

end Sys2Proof.Machine
end

