-- ==== Sys2Proof/Machine/Surface.lean ====
section
/-! DEFINITION. The meanings of the drawing surface's operations (43_surface.md). -/

namespace Sys2Proof.Machine

/-- surface.init() (R85): initialize, then full brightness. -/
def execSurfaceInit (s : State) : Result :=
  andThen (driverInit .surfaceInit s) (driverBrightness .surfaceInit 15)

/-- surface.write(pixel, color) (R87): writing `off` does nothing. -/
def execSurfaceWrite (p : Point) (c : Color) (s : State) : Result := .next (surfaceWriteOp p c s)

/-- surface.flush() (R88). -/
def execSurfaceFlush (s : State) : Result := driverFlush .surfaceFlush s

/-- surface.clear() (R89): the shadow frame alone; no event. -/
def execSurfaceClear (s : State) : Result :=
  .next ((List.finRange 24).foldl (fun s y => memWrite y 0x0000 s) s)

end Sys2Proof.Machine
end

