-- ==== Sys2Proof/Machine/Transaction.lean ====
section
/-! DEFINITION. The meanings of the pin-group and transaction-scope operations (40_transaction.md). -/

namespace Sys2Proof.Machine

/-- pin_group.op (R58, R60). -/
def execPinGroupOp (members : List Pin) (op : PinOp) (s : State) : Result := .next (applyPinGroup members op s)

/-- pin_group.read (R59): the value goes to the host (log 9); no other effect (R36). -/
def execPinGroupRead (members : List Pin) (s : State) : Result :=
  .next { s with readOut := some (readPinGroup members s) }

/-- begin (R61). -/
def execBeginTxn (s : State) : Result := beginScope .beginTxn s

/-- shift_bits(n, v) (R62): a v that is not a `UInt16` is refused before the call (X4, R122). -/
def execShiftBits (n v : Int) (s : State) : Result :=
  match shiftValueOf v with
  | some w => shiftBitsOp n w s
  | none => .refused (.refShiftValueWidth v)

/-- end (R67). -/
def execEndTxn (s : State) : Result := endScope s

end Sys2Proof.Machine
end

