-- ==== Sys2Proof/Machine/Dispatch.lean ====
section
/-! DEFINITION. The dispatch: one arm for each constructor of Instr. -/

namespace Sys2Proof.Machine

def exec (i : Instr) (s : State) : Host.Outcome State Fault Refusal :=
  match i with
  -- wire frames (45_wire_frames.md)
  | .sysDis => Sys2Proof.Machine.execSysDis s
  | .sysEn => Sys2Proof.Machine.execSysEn s
  | .ledOff => Sys2Proof.Machine.execLedOff s
  | .ledOn => Sys2Proof.Machine.execLedOn s
  | .blinkOff => Sys2Proof.Machine.execBlinkOff s
  | .masterMode => Sys2Proof.Machine.execMasterMode s
  | .comOption => Sys2Proof.Machine.execComOption s
  | .brightnessFrame level => Sys2Proof.Machine.execBrightnessFrame level s
  | .cmdUnlisted op => Sys2Proof.Machine.execCmdUnlisted op s
  | .writeRam addr words residual => Sys2Proof.Machine.execWriteRam addr words residual s
  -- pin group and transaction scope (40_transaction.md)
  | .pinGroupOp members op => Sys2Proof.Machine.execPinGroupOp members op s
  | .pinGroupRead members => Sys2Proof.Machine.execPinGroupRead members s
  | .beginTxn => Sys2Proof.Machine.execBeginTxn s
  | .shiftBits n v => Sys2Proof.Machine.execShiftBits n v s
  | .endTxn => Sys2Proof.Machine.execEndTxn s
  -- command operations (41_controller_commands.md)
  | .cmd op => Sys2Proof.Machine.execCmd op s
  | .initDriver => Sys2Proof.Machine.execInitDriver s
  | .shutdownLeds => Sys2Proof.Machine.execShutdownLeds s
  | .shutdown => Sys2Proof.Machine.execShutdown s
  | .setBrightness level => Sys2Proof.Machine.execSetBrightness level s
  | .constructDriver => Sys2Proof.Machine.execConstructDriver s
  -- RAM-write and shadow-frame operations (42_controller_ram.md)
  | .clear => Sys2Proof.Machine.execClear s
  | .fill => Sys2Proof.Machine.execFill s
  | .setPixel x y => Sys2Proof.Machine.execSetPixel x y s
  | .clearPixel x y => Sys2Proof.Machine.execClearPixel x y s
  | .flush => Sys2Proof.Machine.execFlush s
  | .replaceFrame w => Sys2Proof.Machine.execReplaceFrame w s
  -- drawing surface (43_surface.md)
  | .surfaceInit => Sys2Proof.Machine.execSurfaceInit s
  | .surfaceWrite p c => Sys2Proof.Machine.execSurfaceWrite p c s
  | .surfaceFlush => Sys2Proof.Machine.execSurfaceFlush s
  | .surfaceClear => Sys2Proof.Machine.execSurfaceClear s
  -- drawables (44_rasterizers.md)
  | .lineDraw d => Sys2Proof.Machine.execLineDraw d s
  | .rectDraw d => Sys2Proof.Machine.execRectDraw d s
  | .rectFill d => Sys2Proof.Machine.execRectFill d s
  | .circleDraw d => Sys2Proof.Machine.execCircleDraw d s
  | .drawableCall c => Sys2Proof.Machine.execDrawableCall c s

end Sys2Proof.Machine
end

