-- ==== Sys2Proof/Machine/Run.lean ====
section
/-! DEFINITION. What a step does with the host's next call (00_scope.md R11, 45_wire_frames.md R103). -/

namespace Sys2Proof.Machine

/-- A raw frame runs as the instruction it decodes to; a bit string that is no row of the opcode table is sent as it
is, since R103 says what the receiver makes of it (log 4). -/
def runFrame (bits : Bits) (s : State) : Host.Outcome State Fault Refusal :=
  match decode bits with
  | .ok i => exec i s
  | .error _ => rawFrame bits s

/-- The host's call is made (log 4). -/
def runCall (c : HostCall) (s : State) : Host.Outcome State Fault Refusal :=
  match c with
  | .call i => exec i s
  | .frame bits => runFrame bits s

end Sys2Proof.Machine
end

