-- ==== Sys2Proof/Machine/Step.lean ====
section
/-! DEFINITION. One step: the host's next call is made (00_scope.md R11, 10_state.md R21). -/

namespace Sys2Proof.Machine

/-- One step. With no call pending the host makes none and nothing changes (log 4). -/
def step (s : State) : Host.Outcome State Fault Refusal :=
  match fetch s with
  | none => .next s
  | some (c, s') => runCall c s'

/-- `s` with the frame of a table word put where `step` takes its next call from (log 4, log 6). -/
def State.withFetchWord (s : State) (nbits w : Nat) : State := pushFrame (tableFrame nbits w) s

end Sys2Proof.Machine
end

