-- ==== Sys2Proof/Safety.lean ====
section
/-! DEFINITION. The terms the statements are written in: what a safe run is, what a wire frame is on the pins, and the
invariants. Nothing here is called by the machine. -/

namespace Sys2Proof.Machine

/-! ## Outcomes -/

/-- `k` steps from `s` end in no fault and no refusal: the premise of every claim about the block (R119). -/
def SafeRun (k : Nat) (s : State) : Prop := ∃ t, Host.Core.run Sys2Proof.core k s = .next t

/-- Calls made one after another by the host; a fault or a refusal ends the run (R38, R119). -/
def execAll : List Instr → State → Result
  | [], s => .next s
  | i :: is, s => andThen (exec i s) (execAll is)

/-! ## Wire frames on the pins -/

/-- The low `n` bits of a number, most significant first (R31, R45). -/
def wireBits (n v : Nat) : Bits := (List.range n).map fun i => v.testBit (n - 1 - i)

/-- The bits of `CMD op`: 100, the opcode, a trailing 0 (R46). -/
def cmdFrame (op : Nat) : Bits := [true, false, false] ++ wireBits 8 op ++ [false]

/-- The bits of `WRAM @addr words` with residual bits after the last word (R47, R113). -/
def wramFrame (addr : Nat) (words : List Row) (residual : Bits) : Bits :=
  [true, false, true] ++ wireBits 7 addr ++ words.flatMap (fun w => wireBits 16 w.toNat) ++ residual

/-- The three pin events of one bit (R63). -/
def cycleEvents (b : Bool) : List Event := [(.wr, false), (.data, b), (.wr, true)]

/-- The pin events of a frame in a transaction of its own (R61, R63, R67). -/
def frameEvents (bits : Bits) : List Event := (.cs, false) :: (bits.flatMap cycleEvents ++ [(.cs, true)])

/-- The levels after a frame: `cs` high, `wr` high and `data` the last bit if any bit was sent (R63, R67). -/
def levelsAfter (bits : Bits) (l : PinLevels) : PinLevels where
  cs := true
  wr := if bits = [] then l.wr else true
  data := bits.getLastD l.data
  rd := l.rd

/-- A transaction that begins now reaches the receiver: the run's first transaction has begun already, or the boot
requirement is met (R133). -/
def bootHolds (s : State) : Bool :=
  match s.boot with
  | .decided => true
  | .waiting => bootMet s
  | .opening _ => bootMet s

/-- The bits that the next `(cs, 0)` finds in an open frame: none when `cs` is high, those of a frame that the host left
open when `cs` is low (R43; log 8). -/
def heldBits (s : State) : Bits := if s.levels.cs then [] else s.openFrame.getD []

/-- The receiver after a frame: the frame is applied, unless the run is undefined for want of the boot requirement
(R103, R133). -/
def rxAfterFrame (bits : Bits) (s : State) : Receiver :=
  if bootHolds s then s.rx.receive (heldBits s ++ bits) else s.rx.unboot

/-- `s` after one whole frame was sent from it, with nothing else changed. -/
def afterFrame (bits : Bits) (s : State) : State :=
  { s with
    wire := {
      levels := levelsAfter bits s.levels
      log := (frameEvents bits).reverse ++ s.wire.log
      openBits := none
      rx := rxAfterFrame bits s }
    boot := .decided }

/-- `s` after several frames. -/
def afterFrames (frames : List Bits) (s : State) : State := frames.foldl (fun s bits => afterFrame bits s) s

/-- The all-zero shadow frame. -/
def blank : Vector Row 24 := Vector.replicate 24 0x0000

/-- The all-ones shadow frame. -/
def allOnes : Vector Row 24 := Vector.replicate 24 0xFFFF

/-- The frames of `initialize()`, in order (R72). -/
def initFrames : List Bits :=
  [cmdFrame 0x01, cmdFrame 0x03, cmdFrame 0x08, cmdFrame 0x18, cmdFrame 0x24, wramFrame 0 blank.toList []]

/-! ## Pixels -/

/-- Pixel (x, y) of the shadow frame: bit x of row y (R19). -/
def pixel (s : State) (x : Fin 16) (y : Fin 24) : Bool := (memRead y s).getLsbD x

/-- Only the shadow frame differs: no pin event, no receiver change, no other field (R137). -/
def OnlyFrame (s t : State) : Prop := t = setFrame t.frame s

/-- `t` is `s` with exactly the on-panel points among `pts` set as well (R100, R102). -/
def Draws (pts : Point → Prop) (s t : State) : Prop :=
  OnlyFrame s t ∧ ∀ (x : Fin 16) (y : Fin 24), pixel t x y = true ↔ (pixel s x y = true ∨ pts ⟨x, y⟩)

/-! ## Kinds of instruction -/

/-- The instruction emits a frame whenever no scope is live and its operands are in their domain (R120, F1). -/
def EmitsFrame : Instr → Prop
  | .sysDis | .sysEn | .ledOff | .ledOn | .blinkOff | .masterMode | .comOption => True
  | .brightnessFrame _ | .cmdUnlisted _ | .writeRam _ _ _ => True
  | .cmd op => 0 ≤ op ∧ op < 256
  | .setBrightness level => 0 ≤ level ∧ level ≤ 15
  | .initDriver | .shutdownLeds | .shutdown | .clear | .fill | .flush | .surfaceInit | .surfaceFlush => True
  | .pinGroupOp _ _ | .pinGroupRead _ | .beginTxn | .shiftBits _ _ | .endTxn | .constructDriver => False
  | .setPixel _ _ | .clearPixel _ _ | .replaceFrame _ | .surfaceWrite _ _ | .surfaceClear => False
  | .lineDraw _ | .rectDraw _ | .rectFill _ | .circleDraw _ | .drawableCall _ => False

/-- The instruction touches the shadow frame alone (R137). -/
def ShadowOnly : Instr → Prop
  | .setPixel _ _ | .clearPixel _ _ | .replaceFrame _ | .surfaceWrite _ _ | .surfaceClear => True
  | .lineDraw _ | .rectDraw _ | .rectFill _ | .circleDraw _ | .drawableCall _ => True
  | .sysDis | .sysEn | .ledOff | .ledOn | .blinkOff | .masterMode | .comOption => False
  | .brightnessFrame _ | .cmdUnlisted _ | .writeRam _ _ _ => False
  | .cmd _ | .setBrightness _ => False
  | .initDriver | .shutdownLeds | .shutdown | .clear | .fill | .flush | .surfaceInit | .surfaceFlush => False
  | .pinGroupOp _ _ | .pinGroupRead _ | .beginTxn | .shiftBits _ _ | .endTxn | .constructDriver => False

/-- The operands for which R120 names a refusal X1 to X4. -/
def OperandRefused : Instr → Prop
  | .cmd op => ¬ (0 ≤ op ∧ op < 256)
  | .shiftBits _ v => ¬ (0 ≤ v ∧ v < 65536)
  | .replaceFrame w => w.length ≠ 24
  | .lineDraw d => ¬ (d.location.x ≤ d.endPt.x ∧ d.location.y ≤ d.endPt.y)
  | .rectDraw d | .rectFill d => ¬ (d.location.x ≤ d.endPt.x ∧ d.location.y ≤ d.endPt.y)
  | .circleDraw d => ¬ (0 ≤ d.radius)
  | .drawableCall c => c.wf = false
  | .sysDis | .sysEn | .ledOff | .ledOn | .blinkOff | .masterMode | .comOption => False
  | .brightnessFrame _ | .cmdUnlisted _ | .writeRam _ _ _ => False
  | .pinGroupOp _ _ | .pinGroupRead _ | .beginTxn | .endTxn => False
  | .initDriver | .shutdownLeds | .shutdown | .setBrightness _ | .constructDriver => False
  | .clear | .fill | .setPixel _ _ | .clearPixel _ _ | .flush => False
  | .surfaceInit | .surfaceWrite _ _ | .surfaceFlush | .surfaceClear => False

/-! ## Invariants -/

/-- The pins' levels, the open frame and the receiver are what the event log tells, read from the levels `l` on
(R16, R43, R44, R103); the receiver of a run without the boot requirement is excepted (R133). -/
def LogTells (l : PinLevels) (s : State) : Prop :=
  (wireView l s.events).levels = s.levels ∧
  (wireView l s.events).openBits = s.wire.openBits ∧
  (s.rx ≠ .unbooted → s.rx = (framesOf l s.events).foldl (fun r bits => r.receive bits) (.defined Device.init))

/-- Between frames the receiver's write pointer is none (R24, R113). -/
def PointerIdle (s : State) : Prop := ∀ d, s.rx = .defined d → d.ptr = none

/-- Before the run's first transaction no scope is live and the receiver is as at reset, and a frame is open only in
`opening` and holds no bit (R132, R133). -/
def BootTells (s : State) : Prop :=
  s.boot ≠ .decided → s.txn = .idle ∧ s.rx = .defined Device.init ∧
    s.wire.openBits = if s.boot = .waiting then none else some []

/-- A frame is open only while `cs` is low (R43). -/
def OpenMeansLow (s : State) : Prop := s.wire.openBits.isSome = true → s.levels.cs = false

end Sys2Proof.Machine
end

