-- ==== Sys2Proof/Certificates/Slice0/Obligations.lean ====
section
/-! DEFINITION. The statements for the provers. `afterFrame bits s` (Safety.lean) is `s` after one whole wire frame and
nothing else; `cmdFrame`, `wramFrame` and `wireBits` are the frame formats of 30_encoding.md, written apart from the
model's encoder. -/

open Sys2Proof Sys2Proof.Machine

/-! ## Reset, decoding, stepping -/

/-- R130 to R132 (spec decisions D9 to D11): the state at the driver's construction. The open parameters are constants
with no body (log 1, log 2); `boot`, `pending` and `readOut` are the model's own fields (log 7, log 4, log 9). -/
def Obligations.ResetStateIsAsStated : Prop :=
  State.reset.txn = .idle ∧ State.reset.events = [] ∧ State.reset.openFrame = none ∧
  (∀ p, State.reset.levels.get p = Config.pinLevelInit p) ∧ (∀ p, State.reset.dirs.get p = Config.pinDirInit p) ∧
  (∀ y, memRead y State.reset = Config.shadowInit y) ∧
  (∃ d, State.reset.rx = .defined d ∧ d.sysEn = .unknown ∧ d.ledOn = .unknown ∧ d.blink = .unknown ∧
    d.clockMode = .unknown ∧ d.comOption = .unknown ∧ d.brightness = .unknown ∧
    (∀ y : Fin 24, d.ram[y] = .unknown) ∧ d.ptr = none) ∧
  State.reset.boot = .waiting ∧ State.reset.pending = [] ∧ State.reset.readOut = none

/-- R49, R50, R47: words of the opcode map, written out bit by bit, decode to their instructions. -/
def Obligations.OpcodeMapWordsDecode : Prop :=
  decode [true, false, false, false, false, false, false, false, false, false, false, false] = .ok .sysDis ∧
  decode [true, false, false, false, false, false, false, false, false, false, true, false] = .ok .sysEn ∧
  decode [true, false, false, false, false, true, false, false, true, false, false, false] = .ok .comOption ∧
  decode [true, false, false, true, false, true, false, true, true, true, true, false] = .ok (.brightnessFrame 15) ∧
  decode [true, false, false, true, true, true, true, true, true, true, true, false] = .ok (.cmdUnlisted 0xFF) ∧
  decode ([true, false, true, false, false, false, false, true, false, true] ++
    [true, false, false, false, false, false, false, false, false, false, false, false, false, false, true, false] ++
    [true]) = .ok (.writeRam 5 [0x8002] [true])

/-- R46, R47, R50, R113: decoding the bits of a well-formed wire frame gives the instruction back, every operand
included. -/
def Obligations.DecodeOfEncodeIsTheInstruction : Prop :=
  ∀ (i : Instr) (bits : Bits), i.wf = true → encode i = some bits → decode bits = .ok i

/-- R48, R53, R55: a bit string that decodes is the encoding of what it decodes to, and that instruction is well
formed: no bit of a frame is dropped, and a reserved form decodes to nothing. -/
def Obligations.DecodedFrameEncodesBack : Prop :=
  ∀ (i : Instr) (bits : Bits), decode bits = .ok i → encode i = some bits ∧ i.wf = true

/-- R11, R21, R103 (the queue of calls is the model's own, log 4): a step takes the host's next call off the list and runs
it. A raw frame runs as the instruction it decodes to; one that is no row of the opcode table is sent as it is, in a
transaction of its own; with no call pending nothing changes; and the table's words run through `withFetchWord`. -/
def Obligations.StepRunsTheNextCall : Prop :=
  (∀ s bits rest i, s.pending = .frame bits :: rest → decode bits = .ok i →
    step s = exec i { s with pending := rest }) ∧
  (∀ s bits rest e, s.pending = .frame bits :: rest → decode bits = .error e →
    (s.txn = .idle → step s = .next (afterFrame bits { s with pending := rest })) ∧
    (s.txn = .active → step s = .fault (.nestedTransaction .beginTxn))) ∧
  (∀ s i rest, s.pending = .call i :: rest → step s = exec i { s with pending := rest }) ∧
  (∀ s, s.pending = [] → step s = .next s) ∧
  (∀ s nbits w i, decodeTableWord nbits w = some i → step (s.withFetchWord nbits w) = exec i s)

/-! ## Pins -/

/-- R30: a read returns the row, a write of row y makes row y the value and changes no other row and nothing else. -/
def Obligations.RowWriteChangesOneRow : Prop :=
  ∀ (s : State) (y z : Fin 24) (v : Row),
    memRead y (memWrite y v s) = v ∧ (z ≠ y → memRead z (memWrite y v s) = memRead z s) ∧
    OnlyFrame s (memWrite y v s)

/-- R58: a pin group applies its operation to the members one by one, in declared order, each complete before the
next. -/
def Obligations.PinGroupAppliesMembersInOrder : Prop :=
  ∀ (op : PinOp) (s : State),
    exec (.pinGroupOp [] op) s = .next s ∧
    ∀ p members, exec (.pinGroupOp (p :: members) op) s =
      andThen (exec (.pinGroupOp [p] op) s) (exec (.pinGroupOp members op))

/-- R60 (spec decision D2): the direction operations set the members' directions and nothing else; `flush-direction`,
`flush` and `refresh` change nothing. -/
def Obligations.PinGroupDirectionsAndCommits : Prop :=
  ∀ (members : List Pin) (s : State),
    (∃ t, exec (.pinGroupOp members .setDirectionOutput) s = .next t ∧ t = { s with dirs := t.dirs } ∧
      ∀ p, t.dirs.get p = if p ∈ members then .output else s.dirs.get p) ∧
    (∃ t, exec (.pinGroupOp members .setDirectionInput) s = .next t ∧ t = { s with dirs := t.dirs } ∧
      ∀ p, t.dirs.get p = if p ∈ members then .input else s.dirs.get p) ∧
    exec (.pinGroupOp members .flushDirection) s = .next s ∧
    exec (.pinGroupOp members .flush) s = .next s ∧
    exec (.pinGroupOp members .refresh) s = .next s

/-- R58, R60: `write(b)` logs one event for each member, in declared order, and drives exactly the members to b. When `cs` is
no member the receiver reads no frame: it stays as it is, but that before the run's first transaction it can become
undefined (R133; log 7). Nothing but the wire and `boot` changes. -/
def Obligations.PinGroupWriteDrivesItsMembers : Prop :=
  ∀ (members : List Pin) (b : Level) (s : State),
    ∃ t, exec (.pinGroupOp members (.write b)) s = .next t ∧
      t.events = s.events ++ members.map (fun p => (p, b)) ∧
      (∀ p, t.levels.get p = if p ∈ members then b else s.levels.get p) ∧
      (Pin.cs ∉ members → t.rx = s.rx ∨ (s.boot ≠ .decided ∧ t.rx = s.rx.unboot)) ∧
      (s.boot = .decided → t.boot = .decided) ∧ t = { s with wire := t.wire, boot := t.boot }

/-- R59 (where the value goes is the model's choice, log 9): `read` answers the OR of the members' levels, 0 for no
members, and has no other effect. -/
def Obligations.PinGroupReadIsTheOrOfItsMembers : Prop :=
  ∀ (members : List Pin) (s : State),
    ∃ v, exec (.pinGroupRead members) s = .next { s with readOut := some v } ∧
      (v = true ↔ ∃ p ∈ members, s.levels.get p = true)

/-! ## Transaction scope -/

/-- R61: `begin` logs `(cs, 0)`, drives `cs` low, makes the scope live and opens a frame, an empty one when `cs` was high; it
touches no other pin and nothing else of the driver. From a live scope it faults. (What it does to the receiver is
stated apart.) -/
def Obligations.BeginOpensTheScope : Prop :=
  ∀ s, (s.txn = .idle → ∃ t, exec .beginTxn s = .next t ∧ t.txn = .active ∧
      t.events = s.events ++ [(.cs, false)] ∧ t.levels = { s.levels with cs := false } ∧
      t.openFrame.isSome = true ∧ (s.levels.cs = true → t.openFrame = some []) ∧
      t.dirs = s.dirs ∧ t.frame = s.frame ∧ t.pending = s.pending ∧ t.readOut = s.readOut) ∧
    (s.txn = .active → exec .beginTxn s = .fault (.nestedTransaction .beginTxn))

/-- R103, R133, R139, R43 (spec decisions D10, D14; log 7): `begin` opens an empty frame when `cs` was high. At the run's first
transaction it leaves the receiver alone when the boot requirement is met, and makes a defined receiver undefined when it
is not; at a later one it leaves the receiver alone whatever the pins are. The host's own pin writes come under the same
requirement: before the first transaction, the first bit they latch into a frame opened without it makes a defined
receiver undefined. `end` gives the receiver the open frame, whole, and leaves it alone when no frame is open. -/
def Obligations.ScopeAtTheReceiver : Prop :=
  ∀ s t, (s.txn = .idle → exec .beginTxn s = .next t → t.boot = .decided ∧
      (s.levels.cs = true → t.openFrame = some []) ∧ (s.boot = .decided → t.rx = s.rx) ∧
      (s.levels.cs = true ∧ (∀ p, s.dirs.get p = .output) → t.rx = s.rx) ∧
      (s.boot ≠ .decided → ¬ (s.levels.cs = true ∧ ∀ p, s.dirs.get p = .output) →
        ∀ d, s.rx = .defined d → t.rx = .unbooted)) ∧
    (s.boot = .waiting → exec (.pinGroupOp [.cs] (.write false)) s = .next t →
      ∃ ok, t.boot = .opening ok ∧ (ok = true ↔ s.levels.cs = true ∧ ∀ p, s.dirs.get p = .output) ∧ t.rx = s.rx) ∧
    (∀ ok, s.boot = .opening ok → exec (.pinGroupOp [.wr] (.write true)) s = .next t →
      s.levels.wr = false → s.levels.cs = false → s.openFrame ≠ none → t.boot = .decided ∧
      (ok = true → t.rx = s.rx) ∧ (ok = false → ∀ d, s.rx = .defined d → t.rx = .unbooted)) ∧
    (s.txn = .active → exec .endTxn s = .next t →
      (∀ open_, s.openFrame = some open_ → t.rx = s.rx.receive open_) ∧ (s.openFrame = none → t.rx = s.rx))

/-- R67: `end` logs `(cs, 1)`, drives `cs` high, ends the scope and closes the open frame; it touches no other pin and nothing
else of the driver. With no live scope it faults. `begin` and `end` with nothing between make a frame of no bits. (What
`end` does to the receiver is stated apart.) -/
def Obligations.EndClosesTheScope : Prop :=
  ∀ s, (s.txn = .active → ∃ t, exec .endTxn s = .next t ∧ t.txn = .idle ∧
      t.events = s.events ++ [(.cs, true)] ∧ t.levels = { s.levels with cs := true } ∧ t.openFrame = none ∧
      t.dirs = s.dirs ∧ t.boot = s.boot ∧ t.frame = s.frame ∧ t.pending = s.pending ∧ t.readOut = s.readOut) ∧
    (s.txn = .idle → exec .endTxn s = .fault .endWithoutBegin) ∧
    (s.txn = .idle → ∃ t, andThen (exec .beginTxn s) (exec .endTxn) = .next t ∧
      ∀ l, (wireView l s.events).levels.cs = true → framesOf l t.events = framesOf l s.events ++ [[]])

/-- R62, R63 (spec decision D5): inside a live scope `shift_bits(n, v)` sends v[n−1], …, v[0], three pin events each, into
the open frame, and nothing else changes. -/
def Obligations.ShiftBitsSendsTheLowBitsMsbFirst : Prop :=
  ∀ (s : State) (n v : Nat), s.txn = .active → n ≤ 16 → v < 65536 →
    ∃ t, exec (.shiftBits n v) s = .next t ∧
      t.events = s.events ++ (wireBits n v).flatMap cycleEvents ∧
      t.levels = { s.levels with
        wr := if n = 0 then s.levels.wr else true, data := if n = 0 then s.levels.data else v.testBit 0 } ∧
      t.rx = s.rx ∧ t = { s with wire := t.wire } ∧
      (∀ open_, s.levels.cs = false → s.openFrame = some open_ → t.openFrame = some (open_ ++ wireBits n v))

/-- R120, R122 (spec decisions D6, D7): `shift_bits` refuses a value that is no 16-bit word, whatever the scope; then faults
outside a scope; then faults on a width outside 0..16. -/
def Obligations.ShiftBitsStopsInThisOrder : Prop :=
  ∀ (s : State) (n v : Int),
    (¬ (0 ≤ v ∧ v < 65536) → exec (.shiftBits n v) s = .refused (.refShiftValueWidth v)) ∧
    (0 ≤ v → v < 65536 → s.txn = .idle →
      exec (.shiftBits n v) s = .fault (.shiftOutsideTransaction n (BitVec.ofNat 16 v.toNat))) ∧
    (0 ≤ v → v < 65536 → s.txn = .active → (n < 0 ∨ 16 < n) →
      exec (.shiftBits n v) s = .fault (.shiftWidthOutOfRange n))

/-- R64: a zero-length shift inside a live scope appends no event and changes no state. -/
def Obligations.ZeroLengthShiftChangesNothing : Prop :=
  ∀ (s : State) (v : Int), s.txn = .active → 0 ≤ v → v < 65536 → exec (.shiftBits 0 v) s = .next s

/-- R70: two shifts in one scope are one shift of the concatenated field. -/
def Obligations.SuccessiveShiftsConcatenate : Prop :=
  ∀ (s : State) (n m a b : Nat), s.txn = .active → n + m ≤ 16 → a < 2 ^ n → b < 2 ^ m →
    andThen (exec (.shiftBits n a) s) (exec (.shiftBits m b)) = exec (.shiftBits (n + m : Nat) (a * 2 ^ m + b : Nat)) s

/-- R43, R44: whatever the log held, a frame sent with `cs` high is read back from the log bit for bit, as one more
frame. -/
def Obligations.LogReadsBackEverySentFrame : Prop :=
  ∀ (l : PinLevels) (events : List Event) (bits : Bits), (wireView l events).levels.cs = true →
    framesOf l (events ++ frameEvents bits) = framesOf l events ++ [bits]

/-! ## Frames sent -/

/-- R71, R46, R141 (spec decision D23): `cmd(op)` sends one 12-bit frame 100, opcode, 0, whatever the opcode, and changes
nothing else; that is 38 pin events. From a live scope it faults; an op that is no 8-bit value is refused. -/
def Obligations.CmdSendsOneCommandFrame : Prop :=
  ∀ s, (∀ op : Nat, op < 256 → s.txn = .idle →
      exec (.cmd op) s = .next (afterFrame (cmdFrame op) s) ∧
      (afterFrame (cmdFrame op) s).events.length = s.events.length + 38) ∧
    (∀ op : Nat, op < 256 → s.txn = .active → exec (.cmd op) s = .fault (.nestedTransaction (.cmd op))) ∧
    (∀ op : Int, op < 0 ∨ 255 < op → exec (.cmd op) s = .refused (.refOpcodeWidth op))

/-- R49, R50, R104 to R113 (log 5): each wire frame of the opcode map is sent as its own bits, and nothing but the pins,
the log, the receiver and `boot` changes. -/
def Obligations.EachWireFrameIsSentAsItsBits : Prop :=
  ∀ s, s.txn = .idle →
    exec .sysDis s = .next (afterFrame [true, false, false, false, false, false, false, false, false, false, false, false] s) ∧
    exec .sysEn s = .next (afterFrame [true, false, false, false, false, false, false, false, false, false, true, false] s) ∧
    exec .ledOff s = .next (afterFrame [true, false, false, false, false, false, false, false, false, true, false, false] s) ∧
    exec .ledOn s = .next (afterFrame [true, false, false, false, false, false, false, false, false, true, true, false] s) ∧
    exec .blinkOff s = .next (afterFrame [true, false, false, false, false, false, false, true, false, false, false, false] s) ∧
    exec .masterMode s = .next (afterFrame [true, false, false, false, false, false, true, true, false, false, false, false] s) ∧
    exec .comOption s = .next (afterFrame [true, false, false, false, false, true, false, false, true, false, false, false] s) ∧
    (∀ level : BitVec 4, exec (.brightnessFrame level) s = .next (afterFrame (cmdFrame (0xA0 + level.toNat)) s)) ∧
    (∀ op : BitVec 8, exec (.cmdUnlisted op) s = .next (afterFrame (cmdFrame op.toNat) s)) ∧
    (∀ addr words residual, exec (.writeRam addr words residual) s =
      .next (afterFrame (wramFrame addr.toNat words residual) s))

/-- R72, R85: `initialize()` sends SYS_EN, LED_ON, BLINK_OFF, MASTERMODE, COMOPTION and a zero RAM write, in this order, in
1374 pin events; `surface.init()` sends the same and then SET_BRIGHTNESS 15, in 1412. Both leave the shadow frame all zero
and change nothing else. From a live scope both fault. -/
def Obligations.InitializationSendsItsFrames : Prop :=
  ∀ s, (s.txn = .idle →
      (∃ t, exec .initDriver s = .next t ∧ t = setFrame blank (afterFrames
        [cmdFrame 0x01, cmdFrame 0x03, cmdFrame 0x08, cmdFrame 0x18, cmdFrame 0x24, wramFrame 0 blank.toList []] s) ∧
        t.events.length = s.events.length + 1374) ∧
      (∃ t, exec .surfaceInit s = .next t ∧ t = setFrame blank (afterFrames
        [cmdFrame 0x01, cmdFrame 0x03, cmdFrame 0x08, cmdFrame 0x18, cmdFrame 0x24, wramFrame 0 blank.toList [],
         cmdFrame 0xAF] s) ∧
        t.events.length = s.events.length + 1412)) ∧
    (s.txn = .active → exec .initDriver s = .fault (.nestedTransaction .initDriver) ∧
      exec .surfaceInit s = .fault (.nestedTransaction .surfaceInit))

/-- R73, R74: `shutdown_leds()` sends LED_OFF and `shutdown()` sends SYS_DIS; nothing else changes, the shadow frame included.
From a live scope both fault. -/
def Obligations.ShutdownCallsSendTheirCommand : Prop :=
  ∀ s, (s.txn = .idle →
      exec .shutdownLeds s =
        .next (afterFrame [true, false, false, false, false, false, false, false, false, true, false, false] s) ∧
      exec .shutdown s =
        .next (afterFrame [true, false, false, false, false, false, false, false, false, false, false, false] s)) ∧
    (s.txn = .active → exec .shutdownLeds s = .fault (.nestedTransaction .shutdownLeds) ∧
      exec .shutdown s = .fault (.nestedTransaction .shutdown))

/-- R75, R50 (spec decision D32): `set_brightness(level)` sends opcode 0xA0 | level when the level is in 0..15, and does
nothing at all otherwise, even inside a live scope. -/
def Obligations.SetBrightnessSendsOnlyLevelsInRange : Prop :=
  ∀ (s : State) (level : Int),
    (s.txn = .idle → 0 ≤ level → level ≤ 15 →
      exec (.setBrightness level) s = .next (afterFrame (cmdFrame (0xA0 + level.toNat)) s)) ∧
    (level < 0 ∨ 15 < level → exec (.setBrightness level) s = .next s)

/-- R76, R130 (spec decision D22; log 10): construction makes no pin event; no scope is live and the shadow frame is
`shadow_init`. -/
def Obligations.ConstructionMakesNoPinEvent : Prop :=
  ∀ s, ∃ t, exec .constructDriver s = .next t ∧ t.txn = .idle ∧ (∀ y, memRead y t = Config.shadowInit y) ∧
    t.wire = s.wire ∧ t.dirs = s.dirs ∧ t.boot = s.boot ∧ t.pending = s.pending ∧ t.readOut = s.readOut

/-- R78, R79 (spec decisions D25, D8): `clear()` and `fill()` send one frame of 24 equal rows from address 0, 1184 pin events,
and leave every row zero, or all ones for `fill`; nothing else changes. From a live scope both fault. -/
def Obligations.ClearAndFillSendAndSetEveryRow : Prop :=
  ∀ s, (s.txn = .idle →
      (∃ t, exec .clear s = .next t ∧ t = setFrame blank (afterFrame (wramFrame 0 blank.toList []) s) ∧
        t.events.length = s.events.length + 1184) ∧
      (∃ t, exec .fill s = .next t ∧ t = setFrame allOnes (afterFrame (wramFrame 0 allOnes.toList []) s) ∧
        t.events.length = s.events.length + 1184)) ∧
    (s.txn = .active → exec .clear s = .fault (.nestedTransaction .clear) ∧
      exec .fill s = .fault (.nestedTransaction .fill))

/-- R82, R88: `flush()` and `surface.flush()` send one frame of all 24 rows of the shadow frame from address 0, each as it
was before the call, 1184 pin events, and leave every row zero; nothing else changes. From a live scope both fault. -/
def Obligations.FlushSendsTheFrameAndZeroesIt : Prop :=
  ∀ s, (s.txn = .idle →
      (∃ t, exec .flush s = .next t ∧ t = setFrame blank (afterFrame (wramFrame 0 s.frame.toList []) s) ∧
        t.events.length = s.events.length + 1184) ∧
      exec .surfaceFlush s = exec .flush s) ∧
    (s.txn = .active → exec .flush s = .fault (.nestedTransaction .flush) ∧
      exec .surfaceFlush s = .fault (.nestedTransaction .surfaceFlush))

/-! ## Shadow frame -/

/-- R80, R84: `set_pixel` lights exactly its pixel if it is in range and changes nothing if it is not; every other pixel
and everything but the shadow frame is unchanged. -/
def Obligations.SetPixelLightsOnePixel : Prop :=
  ∀ (s : State) (a b : Int),
    ∃ t, exec (.setPixel a b) s = .next t ∧ OnlyFrame s t ∧
      (∀ (x : Fin 16) (y : Fin 24), pixel t x y = if a = x ∧ b = y then true else pixel s x y) ∧
      (¬ (0 ≤ a ∧ a < 16 ∧ 0 ≤ b ∧ b < 24) → t = s)

/-- R81, R84: `clear_pixel` darkens exactly its pixel if it is in range and changes nothing if it is not; every other
pixel and everything but the shadow frame is unchanged. -/
def Obligations.ClearPixelDarkensOnePixel : Prop :=
  ∀ (s : State) (a b : Int),
    ∃ t, exec (.clearPixel a b) s = .next t ∧ OnlyFrame s t ∧
      (∀ (x : Fin 16) (y : Fin 24), pixel t x y = if a = x ∧ b = y then false else pixel s x y) ∧
      (¬ (0 ≤ a ∧ a < 16 ∧ 0 ≤ b ∧ b < 24) → t = s)

/-- R83 (spec decision D24): `replace_frame` overwrites the shadow frame with its 24 words and emits nothing; any other
length is refused. -/
def Obligations.ReplaceFrameTakesExactly24Words : Prop :=
  ∀ (s : State) (w : List Row),
    (w.length = 24 → ∃ t, exec (.replaceFrame w) s = .next t ∧ OnlyFrame s t ∧ t.frame.toList = w) ∧
    (w.length ≠ 24 → exec (.replaceFrame w) s = .refused (.refFrameLength w.length))

/-- R87: writing a colour other than `off` is `set_pixel`; writing `off` has no effect. -/
def Obligations.SurfaceWriteSetsUnlessOff : Prop :=
  ∀ (s : State) (p : Point) (c : Color),
    (c ≠ .off → exec (.surfaceWrite p c) s = exec (.setPixel p.x p.y) s) ∧
    (c = .off → exec (.surfaceWrite p c) s = .next s) ∧
    ∃ t, exec (.surfaceWrite p c) s = .next t

/-- R89: `surface.clear()` zeroes the shadow frame, emits nothing and works whether or not a scope is live. -/
def Obligations.SurfaceClearZeroesTheFrameAlone : Prop :=
  ∀ s, ∃ t, exec .surfaceClear s = .next t ∧ OnlyFrame s t ∧ ∀ y, memRead y t = 0x0000

/-! ## Rasterizers -/

/-- R102, R100, R94 to R98: a well-formed drawable, on or off the panel, sets exactly the on-panel points among those its
rasterizer computes; no other pixel, no pin and nothing else changes. -/
def Obligations.DrawablesSetExactlyTheirOnPanelPoints : Prop :=
  ∀ s : State,
    (∀ d : LineShape, d.wf = true →
      ∃ t, exec (.lineDraw d) s = .next t ∧ Draws (· ∈ linePoints d.location d.endPt) s t) ∧
    (∀ d : RectShape, d.wf = true → ∃ t, exec (.rectDraw d) s = .next t ∧ Draws (· ∈ rectEdgePoints d) s t) ∧
    (∀ d : RectShape, d.wf = true → ∃ t, exec (.rectFill d) s = .next t ∧ Draws (· ∈ rectFillPoints d) s t) ∧
    (∀ d : CircleShape, d.wf = true →
      ∃ t, exec (.circleDraw d) s = .next t ∧
        Draws (· ∈ circlePoints ⟨d.location.x + d.radius, d.location.y + d.radius⟩ d.radius) s t)

/-- R101 laws 1, 3, 4, 5: a line plots both endpoints, max(|Δx|, |Δy|) + 1 points, each in the bounding box of its endpoints,
consecutive ones 8-connected, and its major-axis coordinate takes each value between the endpoints exactly once. -/
def Obligations.LinesObeyTheLineLaws : Prop :=
  ∀ p0 p1 : Point,
    (linePoints p0 p1).head? = some p0 ∧ (linePoints p0 p1).getLast? = some p1 ∧
    (linePoints p0 p1).length = max (p1.x - p0.x).natAbs (p1.y - p0.y).natAbs + 1 ∧
    (∀ p ∈ linePoints p0 p1, min p0.x p1.x ≤ p.x ∧ p.x ≤ max p0.x p1.x ∧ min p0.y p1.y ≤ p.y ∧ p.y ≤ max p0.y p1.y) ∧
    (linePoints p0 p1).IsChain (fun p q => (p.x - q.x).natAbs ≤ 1 ∧ (p.y - q.y).natAbs ≤ 1 ∧ p ≠ q) ∧
    ((p1.y - p0.y).natAbs ≤ (p1.x - p0.x).natAbs →
      ∀ x, min p0.x p1.x ≤ x → x ≤ max p0.x p1.x → ((linePoints p0 p1).map Point.x).count x = 1) ∧
    ((p1.x - p0.x).natAbs ≤ (p1.y - p0.y).natAbs →
      ∀ y, min p0.y p1.y ≤ y → y ≤ max p0.y p1.y → ((linePoints p0 p1).map Point.y).count y = 1)

/-- R101 laws 2 and 6: an axis-aligned line plots exactly the integer points of its segment, and a 45° line exactly its
diagonal points, in order. -/
def Obligations.StraightLinesAreExact : Prop :=
  (∀ (a b y : Int) (p : Point), p ∈ linePoints ⟨a, y⟩ ⟨b, y⟩ ↔ (p.y = y ∧ min a b ≤ p.x ∧ p.x ≤ max a b)) ∧
  (∀ (a b x : Int) (p : Point), p ∈ linePoints ⟨x, a⟩ ⟨x, b⟩ ↔ (p.x = x ∧ min a b ≤ p.y ∧ p.y ≤ max a b)) ∧
  (∀ (p0 : Point) (n : Nat) (sx sy : Int), (sx = 1 ∨ sx = -1) → (sy = 1 ∨ sy = -1) →
    linePoints p0 ⟨p0.x + n * sx, p0.y + n * sy⟩ =
      (List.range (n + 1)).map fun (i : Nat) => ⟨p0.x + i * sx, p0.y + i * sy⟩)

/-- R95 (spec decision D19): an unfilled rectangle sets exactly the on-panel points of its boundary. -/
def Obligations.UnfilledRectangleDrawsItsBoundary : Prop :=
  ∀ (s : State) (d : RectShape), d.location.x ≤ d.endPt.x → d.location.y ≤ d.endPt.y →
    ∃ t, exec (.rectDraw d) s = .next t ∧
      Draws (fun p => d.location.x ≤ p.x ∧ p.x ≤ d.endPt.x ∧ d.location.y ≤ p.y ∧ p.y ≤ d.endPt.y ∧
        (p.x = d.location.x ∨ p.x = d.endPt.x ∨ p.y = d.location.y ∨ p.y = d.endPt.y)) s t

/-- R96: a filled rectangle sets exactly the on-panel points of the inclusive rectangle. -/
def Obligations.FilledRectangleDrawsItsInside : Prop :=
  ∀ (s : State) (d : RectShape), d.location.x ≤ d.endPt.x → d.location.y ≤ d.endPt.y →
    ∃ t, exec (.rectFill d) s = .next t ∧
      Draws (fun p => d.location.x ≤ p.x ∧ p.x ≤ d.endPt.x ∧ d.location.y ≤ p.y ∧ p.y ≤ d.endPt.y) s t

/-- R97, R98 (spec decision D18; log 15, log 18): a circle's outline holds the four axis points, reaches no farther than its
radius from the centre on either axis, and is symmetric about the centre under x ↔ −x, y ↔ −y and x ↔ y. It is the
outline and nothing else: with m the greater and l the lesser of |u| and |v|, the point at offset (u, v) is plotted exactly
when m is the whole number nearest to √(r² − l²); so the interior is never plotted, and every column |u| ≤ r holds a point.
A circle of radius 0 is its centre. -/
def Obligations.CircleOutlineIsSymmetric : Prop :=
  ∀ (c : Point) (r : Int), 0 ≤ r →
    (∀ p ∈ [(⟨c.x, c.y + r⟩ : Point), ⟨c.x, c.y - r⟩, ⟨c.x + r, c.y⟩, ⟨c.x - r, c.y⟩], p ∈ circlePoints c r) ∧
    (∀ u v : Int, ⟨c.x + u, c.y + v⟩ ∈ circlePoints c r →
      (u.natAbs ≤ r ∧ v.natAbs ≤ r) ∧ ⟨c.x - u, c.y + v⟩ ∈ circlePoints c r ∧
      ⟨c.x + u, c.y - v⟩ ∈ circlePoints c r ∧ ⟨c.x + v, c.y + u⟩ ∈ circlePoints c r) ∧
    (∀ u v m l : Int, m = max |u| |v| → l = min |u| |v| → 0 < r →
      (⟨c.x + u, c.y + v⟩ ∈ circlePoints c r ↔ m * m - m < r * r - l * l ∧ r * r - l * l ≤ m * m + m)) ∧
    (∀ u : Int, |u| ≤ r → ∃ v, ⟨c.x + u, c.y + v⟩ ∈ circlePoints c r) ∧
    (0 < r → c ∉ circlePoints c r) ∧ ∀ p, p ∈ circlePoints c 0 ↔ p = c

/-- R100: two drawables drawn one after the other give the same state in either order. -/
def Obligations.DrawingOrderIsInvisible : Prop :=
  ∀ (s : State) (d e : Instr),
    (∃ a, d = .lineDraw a ∨ (∃ b, d = .rectDraw b) ∨ (∃ b, d = .rectFill b) ∨ ∃ b, d = .circleDraw b) →
    (∃ a, e = .lineDraw a ∨ (∃ b, e = .rectDraw b) ∨ (∃ b, e = .rectFill b) ∨ ∃ b, e = .circleDraw b) →
    ¬ OperandRefused d → ¬ OperandRefused e →
    ∃ t, andThen (exec d s) (exec e) = .next t ∧ andThen (exec e s) (exec d) = .next t

/-- R99, R91 (spec decisions D36, D21): `update()` and `interact(other)` of accepted drawables change nothing. -/
def Obligations.UpdateAndInteractDoNothing : Prop :=
  ∀ (s : State) (c : DrawableCall), c.wf = true → exec (.drawableCall c) s = .next s

/-! ## Receiver -/

/-- R104 to R111, R117 (spec decisions D13, D16): from an idle state with `cs` high, the boot requirement met at
the run's first transaction, and a defined receiver, each named command
writes its one field; SYS_DIS also makes the RAM unknown; a command other than SYS_EN and SYS_DIS makes its field unknown
unless the system is known to be enabled. Every other receiver field is unchanged. -/
def Obligations.NamedCommandsWriteTheirField : Prop :=
  ∀ (s : State) (d : Device), s.txn = .idle → s.levels.cs = true → bootHolds s = true → s.rx = .defined d →
    (∃ t, exec .sysDis s = .next t ∧
      t.rx = .defined { d with sysEn := .known false, ram := Vector.replicate 24 .unknown }) ∧
    (∃ t, exec .sysEn s = .next t ∧ t.rx = .defined { d with sysEn := .known true }) ∧
    (∃ t, exec .ledOff s = .next t ∧
      t.rx = .defined { d with ledOn := if d.sysEn = .known true then .known false else .unknown }) ∧
    (∃ t, exec .ledOn s = .next t ∧
      t.rx = .defined { d with ledOn := if d.sysEn = .known true then .known true else .unknown }) ∧
    (∃ t, exec .blinkOff s = .next t ∧
      t.rx = .defined { d with blink := if d.sysEn = .known true then .known .off else .unknown }) ∧
    (∃ t, exec .masterMode s = .next t ∧
      t.rx = .defined { d with clockMode := if d.sysEn = .known true then .known .master else .unknown }) ∧
    (∃ t, exec .comOption s = .next t ∧
      t.rx = .defined { d with comOption := if d.sysEn = .known true then .known 0x24 else .unknown }) ∧
    (∀ level : BitVec 4, ∃ t, exec (.brightnessFrame level) s = .next t ∧
      t.rx = .defined { d with brightness := if d.sysEn = .known true then .known level else .unknown })

/-- R112 (spec decision D13): an opcode outside the map makes every receiver field unknown, whether it is sent as a frame
or by `cmd`. -/
def Obligations.UnlistedOpcodeMakesEverythingUnknown : Prop :=
  ∀ (s : State) (d : Device) (op : BitVec 8), s.txn = .idle → s.levels.cs = true → bootHolds s = true → s.rx = .defined d →
    op.toNat ∉ [0x00, 0x01, 0x02, 0x03, 0x08, 0x18, 0x24] → ¬ (0xA0 ≤ op.toNat ∧ op.toNat ≤ 0xAF) →
    ∀ i ∈ [Instr.cmdUnlisted op, Instr.cmd op.toNat], ∃ t, exec i s = .next t ∧
      t.rx = .defined ⟨.unknown, .unknown, .unknown, .unknown, .unknown, .unknown, Vector.replicate 24 .unknown, d.ptr⟩

/-- R113, R114 (spec decisions D12 to D14): the words of a RAM write that stays within the 24 rows land one per row from the
start address on, known if the system is known to be enabled and unknown otherwise; residual bits make the next row
unknown; no other row and no control field changes, and the pointer is none again. -/
def Obligations.RamWriteStoresItsWords : Prop :=
  ∀ (s : State) (d : Device) (addr : BitVec 7) (words : List Row) (residual : Bits),
    s.txn = .idle → s.levels.cs = true → bootHolds s = true → s.rx = .defined d → residual.length < 16 →
    (words = [] ∨ addr.toNat + words.length ≤ 24) →
    ∃ t ram, exec (.writeRam addr words residual) s = .next t ∧ t.rx = .defined { d with ram := ram, ptr := none } ∧
      ∀ y : Fin 24, ram[y] =
        if h : addr.toNat ≤ y ∧ y < addr.toNat + words.length then
          (if d.sysEn = .known true then .known (words[(y : Nat) - addr.toNat]'(by omega)) else .unknown)
        else if y = addr.toNat + words.length ∧ residual ≠ [] then .unknown
        else d.ram[y]

/-- R113, R116, R119 (spec decision D12): a RAM write that runs past row 23 leaves the step's outcome normal and the receiver
refused at the first address past row 23. -/
def Obligations.RamWritePastRow23IsRefusedByTheReceiver : Prop :=
  ∀ (s : State) (d : Device) (addr : BitVec 7) (words : List Row) (residual : Bits),
    s.txn = .idle → s.levels.cs = true → bootHolds s = true → s.rx = .defined d → residual.length < 16 → words ≠ [] →
    24 < addr.toNat + words.length →
    ∃ t, exec (.writeRam addr words residual) s = .next t ∧
      t.rx = .refused (.refRxRamOverflow (max addr.toNat 24)) ∧ t.frame = s.frame ∧ t.txn = .idle

/-- R103, R116 (spec decisions D14, D26, D27): what the receiver makes of frames that are no row of the opcode table. -/
def Obligations.MalformedFramesAtTheReceiver : Prop :=
  ∀ (d : Device) (bits : Bits),
    (bits = [] → rxFrame bits d = .defined d) ∧
    (0 < bits.length → bits.length < 3 → rxFrame bits d = .defined
      ⟨.unknown, .unknown, .unknown, .unknown, .unknown, .unknown, Vector.replicate 24 .unknown, d.ptr⟩) ∧
    (∀ rest, bits = [true, false, false] ++ rest →
      (rest.length < 9 → rxFrame bits d = .defined
        ⟨.unknown, .unknown, .unknown, .unknown, .unknown, .unknown, d.ram, d.ptr⟩) ∧
      (9 < rest.length → rxFrame bits d = .refused (.refRxMultiCommand bits)) ∧
      (∀ op, rest = op ++ [true] → op.length = 8 → rxFrame bits d = .refused (.refRxTrailingBit bits))) ∧
    (∀ rest, bits = [true, false, true] ++ rest → rest.length < 7 →
      rxFrame bits d = .defined { d with ram := Vector.replicate 24 .unknown }) ∧
    (∀ a b c rest, bits = a :: b :: c :: rest → [a, b, c] ≠ [true, false, false] → [a, b, c] ≠ [true, false, true] →
      rxFrame bits d = .refused (.refRxUnknownId bits))

/-- R82, R113, R115 (spec decisions D12 to D15): on a device as `initialize()` leaves it, a flush shows on the panel exactly
the pixels the shadow frame held. -/
def Obligations.FlushShowsTheShadowFrame : Prop :=
  ∀ (s : State) (d : Device), s.txn = .idle → s.levels.cs = true → bootHolds s = true → s.rx = .defined d →
    d.sysEn = .known true → d.ledOn = .known true → d.blink = .known .off → d.clockMode = .known .master →
    d.comOption = .known 0x24 →
    ∃ t, exec .flush s = .next t ∧ ∀ x y, t.rx.lit x y = .known (pixel s x y)

/-- R73, R74, R104, R106, R115 (spec decisions D13, D15): on an enabled device the panel is dark after `shutdown_leds()`, and
after `shutdown()` it is dark whatever the device was. -/
def Obligations.PanelIsDarkAfterShutdown : Prop :=
  ∀ (s : State) (d : Device), s.txn = .idle → s.levels.cs = true → bootHolds s = true → s.rx = .defined d →
    (∃ t, exec .shutdown s = .next t ∧ ∀ x y, t.rx.lit x y = .known false) ∧
    (d.sysEn = .known true → ∃ t, exec .shutdownLeds s = .next t ∧ ∀ x y, t.rx.lit x y = .known false)

/-- R133, R134 (spec decisions D10 to D16): the boot calls, from any state with a defined receiver and no open frame, leave
the driver and the receiver as R134 tabulates, and every pixel of the panel dark. -/
def Obligations.BootSequenceLeavesTheInitialImage : Prop :=
  ∀ (s : State) (d : Device), s.rx = .defined d → s.openFrame = none →
    ∃ t, execAll [.pinGroupOp [.data, .wr, .rd, .cs] .setDirectionOutput,
        .pinGroupOp [.data, .wr, .rd, .cs] .flushDirection, .pinGroupOp [.cs] (.write true), .constructDriver,
        .surfaceInit] s = .next t ∧
      t.txn = .idle ∧ (∀ y, memRead y t = 0x0000) ∧
      t.rx = .defined ⟨.known true, .known true, .known .off, .known .master, .known 0x24, .known 15,
        Vector.replicate 24 (.known 0x0000), none⟩ ∧
      ∀ x y, t.rx.lit x y = .known false

/-! ## Stops -/

/-- R120, R122: a call faults exactly for the causes F1 to F4 listed, with what is recorded for each, and never when its
operands are refused. -/
def Obligations.FaultsAreExactlyThoseListed : Prop :=
  ∀ (i : Instr) (s : State) (f : Fault), exec i s = .fault f ↔
    (EmitsFrame i ∧ s.txn = .active ∧ f = .nestedTransaction i) ∨
    (i = .beginTxn ∧ s.txn = .active ∧ f = .nestedTransaction i) ∨
    (i = .endTxn ∧ s.txn = .idle ∧ f = .endWithoutBegin) ∨
    (∃ n v : Int, i = .shiftBits n v ∧ 0 ≤ v ∧ v < 65536 ∧ s.txn = .idle ∧
      f = .shiftOutsideTransaction n (BitVec.ofNat 16 v.toNat)) ∨
    (∃ n v : Int, i = .shiftBits n v ∧ 0 ≤ v ∧ v < 65536 ∧ s.txn = .active ∧ (n < 0 ∨ 16 < n) ∧
      f = .shiftWidthOutOfRange n)

/-- R120, R122 (for `interact` the drawable recorded is the first ill-formed one, log 16): a call is refused exactly when its
operands are outside the domains X1 to X4 name, whatever the state, and with the code and the record that R120 lists. -/
def Obligations.RefusalsAreExactlyOperandRefusals : Prop :=
  (∀ (i : Instr) (s : State), (∃ r, exec i s = .refused r) ↔ OperandRefused i) ∧
  ∀ (i : Instr) (s : State) (r : Refusal), exec i s = .refused r ↔
    (∃ op, i = .cmd op ∧ (op < 0 ∨ 255 < op) ∧ r = .refOpcodeWidth op) ∨
    (∃ w, i = .replaceFrame w ∧ w.length ≠ 24 ∧ r = .refFrameLength w.length) ∨
    (∃ n v, i = .shiftBits n v ∧ (v < 0 ∨ 65535 < v) ∧ r = .refShiftValueWidth v) ∨
    (∃ d : LineShape, (i = .lineDraw d ∨ (∃ o, i = .drawableCall (.interact (.line d) o)) ∨ i = .drawableCall (.update (.line d))) ∧
      (d.endPt.x < d.location.x ∨ d.endPt.y < d.location.y) ∧ r = .refIllFormedDrawable (.line d)) ∨
    (∃ (d : RectShape) (filled : Bool), ((i = .rectDraw d ∧ filled = false) ∨ (i = .rectFill d ∧ filled = true) ∨
        (∃ o, i = .drawableCall (.interact (.rect d filled) o)) ∨ i = .drawableCall (.update (.rect d filled))) ∧
      (d.endPt.x < d.location.x ∨ d.endPt.y < d.location.y) ∧ r = .refIllFormedDrawable (.rect d filled)) ∨
    (∃ d : CircleShape, (i = .circleDraw d ∨ (∃ o, i = .drawableCall (.interact (.circle d) o)) ∨
        i = .drawableCall (.update (.circle d))) ∧
      d.radius < 0 ∧ r = .refIllFormedDrawable (.circle d)) ∨
    (∃ d o : Drawable, i = .drawableCall (.interact d o) ∧ d.wf = true ∧ o.wf = false ∧ r = .refIllFormedDrawable o)

/-- R118, R119, R125: every other call completes: with operands in their domains, no scope live where the call opens one, a
scope live where it needs one. -/
def Obligations.EveryOtherCallCompletes : Prop :=
  ∀ (i : Instr) (s : State), ¬ OperandRefused i → (EmitsFrame i ∨ i = .beginTxn → s.txn = .idle) →
    (i = .endTxn → s.txn = .active) → (∀ n v : Int, i = .shiftBits n v → s.txn = .active ∧ 0 ≤ n ∧ n ≤ 16) →
    ∃ t, exec i s = .next t

/-! ## The whole machine -/

/-- R16, R24, R43, R44, R103, R131, R132: the state at reset meets the invariants below. -/
def Obligations.ResetMeetsTheInvariants : Prop :=
  LogTells State.reset.levels State.reset ∧ PointerIdle State.reset ∧ OpenMeansLow State.reset ∧ BootTells State.reset

/-- R16, R43, R44, R103: every step keeps it so that the pins, the open frame and the receiver are what the event log tells,
read from the first levels on. -/
def Obligations.StepKeepsLogTellingTheWire : Prop :=
  ∀ (l : PinLevels) (s t : State), LogTells l s → step s = .next t → LogTells l t

/-- R24, R113, R43, R132, R133 (log 7): every step keeps the write pointer none between frames, a frame open only while `cs`
is low, and, before the run's first transaction, the scope idle and the receiver as at reset. -/
def Obligations.StepKeepsReceiverAtRest : Prop :=
  ∀ s t : State, PointerIdle s ∧ OpenMeansLow s ∧ BootTells s → step s = .next t →
    PointerIdle t ∧ OpenMeansLow t ∧ BootTells t

/-- R16: a step only appends to the event log; nothing removes an entry. -/
def Obligations.EventLogOnlyGrows : Prop :=
  ∀ s t : State, step s = .next t → ∃ more, t.events = s.events ++ more

/-- R116, R119, R133 (log 14): once the receiver model is undefined it stays so, with its first reason. -/
def Obligations.UndefinedReceiverStaysUndefined : Prop :=
  ∀ (s t : State), step s = .next t → (∀ d, s.rx ≠ .defined d) → t.rx = s.rx

/-- R42, R4, R103: nothing the driver does depends on the receiver: from states that differ in the receiver alone, a call
answers next states that differ in the receiver alone, or the same fault, or the same refusal. -/
def Obligations.DriverNeverReadsTheReceiver : Prop :=
  ∀ (i : Instr) (s : State) (r : Receiver),
    (∀ t, exec i s = .next t →
      ∃ r', exec i { s with wire := { s.wire with rx := r } } = .next { t with wire := { t.wire with rx := r' } }) ∧
    (∀ f, exec i s = .fault f → exec i { s with wire := { s.wire with rx := r } } = .fault f) ∧
    (∀ e, exec i s = .refused e → exec i { s with wire := { s.wire with rx := r } } = .refused e)

/-- R14, R131: no call but a pin-group operation changes a pin's direction or the level of `rd`. -/
def Obligations.OnlyPinGroupsTouchDirectionsAndRd : Prop :=
  ∀ (i : Instr) (s t : State), (∀ members op, i ≠ .pinGroupOp members op) → exec i s = .next t →
    t.dirs = s.dirs ∧ t.levels.rd = s.levels.rd

/-- R17, R69: no call but `begin`, `end` and the driver's construction leaves the transaction state other than it was. -/
def Obligations.OnlyBeginEndAndConstructionMoveTheScope : Prop :=
  ∀ (i : Instr) (s t : State), i ≠ .beginTxn → i ≠ .endTxn → i ≠ .constructDriver → exec i s = .next t → t.txn = s.txn

/-- R17: while a scope is live `cs` is low, as long as the host does not drive the pins itself. -/
def Obligations.LiveScopeHoldsCsLow : Prop :=
  ∀ (i : Instr) (s t : State), (∀ members b, i ≠ .pinGroupOp members (.write b)) →
    (s.txn = .active → s.levels.cs = false) → exec i s = .next t → (t.txn = .active → t.levels.cs = false)

/-- R137, R100, R89: the shadow-only calls emit nothing: no pin event, nothing at the receiver, nothing but the shadow
frame. -/
def Obligations.ShadowOnlyCallsEmitNothing : Prop :=
  ∀ (i : Instr) (s t : State), ShadowOnly i → exec i s = .next t → OnlyFrame s t
end

