-- ==== Sys2Proof/Laws/State.lean ====
section
/-! SUPPORT. One lemma for each field and update: what the shared operations leave alone and what they write. -/

namespace Sys2Proof.Machine

/-! ## Pin writes -/

@[simp] theorem write_levels (p : Pin) (v : Level) (w : Wire) : (w.write p v).levels = w.levels.set p v := rfl
@[simp] theorem write_log (p : Pin) (v : Level) (w : Wire) : (w.write p v).log = (p, v) :: w.log := rfl
@[simp] theorem write_openBits (p : Pin) (v : Level) (w : Wire) :
    (w.write p v).openBits = nextOpen w.levels w.openBits (p, v) := rfl
@[simp] theorem write_rx (p : Pin) (v : Level) (w : Wire) : (w.write p v).rx = rxAfter w.openBits (p, v) w.rx := rfl

@[simp] theorem pinWrite_wire (p : Pin) (v : Level) (s : State) : (pinWrite p v s).wire = s.wire.write p v := rfl
@[simp] theorem pinWrite_dirs (p : Pin) (v : Level) (s : State) : (pinWrite p v s).dirs = s.dirs := rfl
@[simp] theorem pinWrite_boot (p : Pin) (v : Level) (s : State) : (pinWrite p v s).boot = s.boot := rfl
@[simp] theorem pinWrite_txn (p : Pin) (v : Level) (s : State) : (pinWrite p v s).txn = s.txn := rfl
@[simp] theorem pinWrite_frame (p : Pin) (v : Level) (s : State) : (pinWrite p v s).frame = s.frame := rfl
@[simp] theorem pinWrite_pending (p : Pin) (v : Level) (s : State) : (pinWrite p v s).pending = s.pending := rfl
@[simp] theorem pinWrite_readOut (p : Pin) (v : Level) (s : State) : (pinWrite p v s).readOut = s.readOut := rfl

theorem pinWrite_events (p : Pin) (v : Level) (s : State) : (pinWrite p v s).events = s.events ++ [(p, v)] := by
  simp [State.events]

/-! ## Directions -/

@[simp] theorem setDirection_wire (p : Pin) (d : Direction) (s : State) : (setDirection p d s).wire = s.wire := rfl
@[simp] theorem setDirection_dirs (p : Pin) (d : Direction) (s : State) : (setDirection p d s).dirs = s.dirs.set p d := rfl
@[simp] theorem setDirection_boot (p : Pin) (d : Direction) (s : State) : (setDirection p d s).boot = s.boot := rfl
@[simp] theorem setDirection_txn (p : Pin) (d : Direction) (s : State) : (setDirection p d s).txn = s.txn := rfl
@[simp] theorem setDirection_frame (p : Pin) (d : Direction) (s : State) : (setDirection p d s).frame = s.frame := rfl
@[simp] theorem setDirection_pending (p : Pin) (d : Direction) (s : State) :
    (setDirection p d s).pending = s.pending := rfl
@[simp] theorem setDirection_readOut (p : Pin) (d : Direction) (s : State) :
    (setDirection p d s).readOut = s.readOut := rfl

/-! ## Levels and directions by pin name -/

@[simp] theorem levels_get_set (l : PinLevels) (p q : Pin) (v : Level) :
    (l.set p v).get q = if q = p then v else l.get q := by
  cases p <;> cases q <;> rfl

@[simp] theorem dirs_get_set (d : PinDirs) (p q : Pin) (v : Direction) :
    (d.set p v).get q = if q = p then v else d.get q := by
  cases p <;> cases q <;> rfl

/-! ## The boot requirement -/

@[simp] theorem decideBoot_levels (ok : Bool) (s : State) : (decideBoot ok s).wire.levels = s.wire.levels := rfl
@[simp] theorem decideBoot_log (ok : Bool) (s : State) : (decideBoot ok s).wire.log = s.wire.log := rfl
@[simp] theorem decideBoot_openBits (ok : Bool) (s : State) : (decideBoot ok s).wire.openBits = s.wire.openBits := rfl
@[simp] theorem decideBoot_rx (ok : Bool) (s : State) :
    (decideBoot ok s).wire.rx = if ok then s.rx else s.rx.unboot := rfl
@[simp] theorem decideBoot_boot (ok : Bool) (s : State) : (decideBoot ok s).boot = .decided := rfl

/-- What the check at a `begin` does, in one form: it touches the receiver and `boot` alone (R133). -/
theorem checkBoot_eq (s : State) : checkBoot s =
    { s with wire := { s.wire with rx := if bootHolds s then s.rx else s.rx.unboot }, boot := .decided } := by
  obtain ⟨w, d, t, b, f, p, r⟩ := s
  cases b <;> rfl

@[simp] theorem checkBoot_levels (s : State) : (checkBoot s).wire.levels = s.wire.levels := by rw [checkBoot_eq]
@[simp] theorem checkBoot_log (s : State) : (checkBoot s).wire.log = s.wire.log := by rw [checkBoot_eq]
@[simp] theorem checkBoot_openBits (s : State) : (checkBoot s).wire.openBits = s.wire.openBits := by rw [checkBoot_eq]
@[simp] theorem checkBoot_rx (s : State) :
    (checkBoot s).wire.rx = if bootHolds s then s.rx else s.rx.unboot := by rw [checkBoot_eq]
@[simp] theorem checkBoot_boot (s : State) : (checkBoot s).boot = .decided := by rw [checkBoot_eq]
@[simp] theorem checkBoot_dirs (s : State) : (checkBoot s).dirs = s.dirs := by rw [checkBoot_eq]
@[simp] theorem checkBoot_txn (s : State) : (checkBoot s).txn = s.txn := by rw [checkBoot_eq]
@[simp] theorem checkBoot_frame (s : State) : (checkBoot s).frame = s.frame := by rw [checkBoot_eq]
@[simp] theorem checkBoot_pending (s : State) : (checkBoot s).pending = s.pending := by rw [checkBoot_eq]
@[simp] theorem checkBoot_readOut (s : State) : (checkBoot s).readOut = s.readOut := by rw [checkBoot_eq]

/-- What the check at a pin write can do: it leaves the wire alone, or the receiver becomes undefined, and nothing but
`boot` changes besides; once the first transaction has begun it does nothing (R133). -/
theorem watchBoot_cases (e : Event) (s : State) :
    (∃ b, watchBoot e s = { s with boot := b } ∧ (s.boot = .decided → b = .decided)) ∨
    (s.boot = .opening false ∧ watchBoot e s =
      { s with wire := { s.wire with rx := s.rx.unboot }, boot := .decided }) := by
  obtain ⟨w, d, t, b, f, p, r⟩ := s
  cases b with
  | waiting =>
    by_cases h : e = (.cs, false)
    · exact .inl ⟨_, by simp only [watchBoot, if_pos h]; rfl, fun h => nomatch h⟩
    · exact .inl ⟨_, by simp only [watchBoot, if_neg h], id⟩
  | opening ok =>
    by_cases h : e = (.cs, true)
    · exact .inl ⟨_, by simp only [watchBoot, if_pos h]; rfl, fun h => nomatch h⟩
    · by_cases hl : latches w.levels w.openBits e = true
      · cases ok with
        | true =>
          exact .inl ⟨.decided, by simp only [watchBoot, if_neg h, hl, if_true]; rfl, fun _ => rfl⟩
        | false => exact .inr ⟨rfl, by simp only [watchBoot, if_neg h, hl, if_true]; rfl⟩
      · exact .inl ⟨_, by simp only [watchBoot, if_neg h, hl]; rfl, id⟩
  | decided => exact .inl ⟨_, rfl, id⟩

@[simp] theorem watchBoot_decided (e : Event) (s : State) (h : s.boot = .decided) : watchBoot e s = s := by
  simp [watchBoot, h]

/-! ## Bits sent -/

@[simp] theorem sendBits_dirs (bits : Bits) (s : State) : (sendBits bits s).dirs = s.dirs := rfl
@[simp] theorem sendBits_boot (bits : Bits) (s : State) : (sendBits bits s).boot = s.boot := rfl
@[simp] theorem sendBits_txn (bits : Bits) (s : State) : (sendBits bits s).txn = s.txn := rfl
@[simp] theorem sendBits_frame (bits : Bits) (s : State) : (sendBits bits s).frame = s.frame := rfl
@[simp] theorem sendBits_pending (bits : Bits) (s : State) : (sendBits bits s).pending = s.pending := rfl
@[simp] theorem sendBits_readOut (bits : Bits) (s : State) : (sendBits bits s).readOut = s.readOut := rfl

/-! ## A whole frame -/

@[simp] theorem afterFrame_dirs (bits : Bits) (s : State) : (afterFrame bits s).dirs = s.dirs := rfl
@[simp] theorem afterFrame_boot (bits : Bits) (s : State) : (afterFrame bits s).boot = .decided := rfl
@[simp] theorem afterFrame_txn (bits : Bits) (s : State) : (afterFrame bits s).txn = s.txn := rfl
@[simp] theorem afterFrame_frame (bits : Bits) (s : State) : (afterFrame bits s).frame = s.frame := rfl
@[simp] theorem afterFrame_pending (bits : Bits) (s : State) : (afterFrame bits s).pending = s.pending := rfl
@[simp] theorem afterFrame_readOut (bits : Bits) (s : State) : (afterFrame bits s).readOut = s.readOut := rfl
@[simp] theorem afterFrame_levels (bits : Bits) (s : State) :
    (afterFrame bits s).wire.levels = levelsAfter bits s.levels := rfl
@[simp] theorem afterFrame_openBits (bits : Bits) (s : State) : (afterFrame bits s).wire.openBits = none := rfl
@[simp] theorem afterFrame_rx (bits : Bits) (s : State) : (afterFrame bits s).wire.rx = rxAfterFrame bits s := rfl

theorem afterFrame_events (bits : Bits) (s : State) :
    (afterFrame bits s).events = s.events ++ frameEvents bits := by
  simp [State.events, afterFrame]

/-! ## Shadow rows -/

@[simp] theorem memWrite_wire (y : Fin 24) (v : Row) (s : State) : (memWrite y v s).wire = s.wire := rfl
@[simp] theorem memWrite_dirs (y : Fin 24) (v : Row) (s : State) : (memWrite y v s).dirs = s.dirs := rfl
@[simp] theorem memWrite_boot (y : Fin 24) (v : Row) (s : State) : (memWrite y v s).boot = s.boot := rfl
@[simp] theorem memWrite_txn (y : Fin 24) (v : Row) (s : State) : (memWrite y v s).txn = s.txn := rfl
@[simp] theorem memWrite_pending (y : Fin 24) (v : Row) (s : State) : (memWrite y v s).pending = s.pending := rfl
@[simp] theorem memWrite_readOut (y : Fin 24) (v : Row) (s : State) : (memWrite y v s).readOut = s.readOut := rfl

/-- A read gives the value just written; every other row reads as before (R30). -/
theorem memRead_memWrite (y z : Fin 24) (v : Row) (s : State) :
    memRead z (memWrite y v s) = if z = y then v else memRead z s := by
  simp only [memRead, memWrite, Fin.getElem_fin, Vector.getElem_set, Fin.ext_iff, eq_comm]

@[simp] theorem setFrame_wire (f : Vector Row 24) (s : State) : (setFrame f s).wire = s.wire := rfl
@[simp] theorem setFrame_dirs (f : Vector Row 24) (s : State) : (setFrame f s).dirs = s.dirs := rfl
@[simp] theorem setFrame_boot (f : Vector Row 24) (s : State) : (setFrame f s).boot = s.boot := rfl
@[simp] theorem setFrame_txn (f : Vector Row 24) (s : State) : (setFrame f s).txn = s.txn := rfl
@[simp] theorem setFrame_frame (f : Vector Row 24) (s : State) : (setFrame f s).frame = f := rfl
@[simp] theorem setFrame_pending (f : Vector Row 24) (s : State) : (setFrame f s).pending = s.pending := rfl
@[simp] theorem setFrame_readOut (f : Vector Row 24) (s : State) : (setFrame f s).readOut = s.readOut := rfl
@[simp] theorem setFrame_setFrame (f g : Vector Row 24) (s : State) : setFrame f (setFrame g s) = setFrame f s := rfl
@[simp] theorem setFrame_self (s : State) : setFrame s.frame s = s := rfl

theorem memWrite_eq (y : Fin 24) (v : Row) (s : State) : memWrite y v s = setFrame (s.frame.set y v) s := rfl

@[simp] theorem memWrite_frame (y : Fin 24) (v : Row) (s : State) : (memWrite y v s).frame = s.frame.set y v := rfl
@[simp] theorem setFrame_memWrite (f : Vector Row 24) (y : Fin 24) (v : Row) (s : State) :
    setFrame f (memWrite y v s) = setFrame f s := rfl
theorem sendBits_setFrame (bits : Bits) (f : Vector Row 24) (s : State) :
    sendBits bits (setFrame f s) = setFrame f (sendBits bits s) := rfl

theorem onlyFrame_setFrame (f : Vector Row 24) (s : State) : OnlyFrame s (setFrame f s) := rfl

theorem onlyFrame_memWrite (y : Fin 24) (v : Row) (s : State) : OnlyFrame s (memWrite y v s) := rfl

theorem OnlyFrame.refl (s : State) : OnlyFrame s s := rfl

theorem OnlyFrame.trans {s t u : State} (h : OnlyFrame s t) (k : OnlyFrame t u) : OnlyFrame s u := by
  rw [OnlyFrame] at *
  rw [k, h]
  rfl

/-! ## Sequencing -/

@[simp] theorem andThen_next (s : State) (f : State → Result) : andThen (.next s) f = f s := rfl
@[simp] theorem andThen_fault (e : Fault) (f : State → Result) : andThen (.fault e) f = .fault e := rfl
@[simp] theorem andThen_refused (e : Refusal) (f : State → Result) : andThen (.refused e) f = .refused e := rfl

/-- The one way a sequence answers a next state. -/
theorem andThen_eq_next {r : Result} {f : State → Result} {t : State} (h : andThen r f = .next t) :
    ∃ s, r = .next s ∧ f s = .next t := by
  cases r with
  | next s => exact ⟨s, rfl, h⟩
  | fault e => simp at h
  | refused e => simp at h

end Sys2Proof.Machine
end

