-- ==== Sys2Proof/Laws/Draw.lean ====
section
/-! SUPPORT. What pixel updates and plotted points do to the shadow frame. -/

namespace Sys2Proof.Machine

/-- `InRange` as inequalities (R84). -/
theorem inRange_iff (x y : Int) : inRange x y = true ↔ (0 ≤ x ∧ x < 16 ∧ 0 ≤ y ∧ y < 24) := by
  simp [inRange, and_assoc]

/-- Out of range, a pixel update does nothing (R80, R81). -/
theorem updatePixel_outside (f : Row → Row) (x y : Int) (s : State) (h : ¬ (0 ≤ x ∧ x < 16 ∧ 0 ≤ y ∧ y < 24)) :
    updatePixel f x y s = s := by
  rw [updatePixel, if_neg (by rw [inRange_iff]; exact h)]

/-- In range, a pixel update changes one row (R80, R81). -/
theorem updatePixel_inside (f : Row → Row) (x : Fin 16) (y : Fin 24) (s : State) :
    updatePixel f x y s = memWrite y (f (memRead y s)) s := by
  have hx : (0 : Int) ≤ (x : Nat) ∧ ((x : Nat) : Int) < 16 := ⟨by omega, by omega⟩
  have hy : (0 : Int) ≤ (y : Nat) ∧ ((y : Nat) : Int) < 24 := ⟨by omega, by omega⟩
  rw [updatePixel, if_pos (by rw [inRange_iff]; exact ⟨hx.1, hx.2, hy.1, hy.2⟩)]
  simp only [rowOf, dif_pos hy]
  rfl

/-- A pixel update never leaves the shadow frame. -/
theorem onlyFrame_updatePixel (f : Row → Row) (x y : Int) (s : State) : OnlyFrame s (updatePixel f x y s) := by
  by_cases h : 0 ≤ x ∧ x < 16 ∧ 0 ≤ y ∧ y < 24
  · obtain ⟨hx0, hx1, hy0, hy1⟩ := h
    have e := updatePixel_inside f ⟨x.toNat, by omega⟩ ⟨y.toNat, by omega⟩ s
    simp only [Int.toNat_of_nonneg hx0, Int.toNat_of_nonneg hy0] at e
    rw [e]
    exact onlyFrame_memWrite _ _ _
  · rw [updatePixel_outside f x y s h]
    exact OnlyFrame.refl s

/-- The mask of one pixel (R80). -/
theorem getLsbD_mask (a x : Fin 16) : (1#16 <<< (a : Nat)).getLsbD x = decide (x = a) := by
  revert a x
  decide

/-- After `set_pixel` a pixel is lit if it was, or if it is the one set (R80). -/
theorem pixel_setPixelOp (a b : Int) (s : State) (x : Fin 16) (y : Fin 24) :
    pixel (setPixelOp a b s) x y = (pixel s x y || decide (a = x ∧ b = y)) := by
  by_cases h : 0 ≤ a ∧ a < 16 ∧ 0 ≤ b ∧ b < 24
  · obtain ⟨ha0, ha1, hb0, hb1⟩ := h
    have e := updatePixel_inside (fun w => w ||| (1#16 <<< a.toNat)) ⟨a.toNat, by omega⟩ ⟨b.toNat, by omega⟩ s
    simp only [Int.toNat_of_nonneg ha0, Int.toNat_of_nonneg hb0] at e
    rw [setPixelOp, e, pixel, memRead_memWrite]
    have hm := getLsbD_mask ⟨a.toNat, by omega⟩ x
    by_cases hy : y = ⟨b.toNat, by omega⟩
    · have hb : b = (y : Nat) := by rw [hy]; simp [hb0]
      have hx : (x = ⟨a.toNat, by omega⟩) ↔ a = (x : Nat) := by
        rw [Fin.ext_iff]; simp only; omega
      rw [if_pos hy, BitVec.getLsbD_or, hm, ← hy]
      simp only [pixel, hx, hb, and_true]
    · have hb : ¬ b = (y : Nat) := fun hb => hy (Fin.ext (by simp only; omega))
      rw [if_neg hy]
      simp [pixel, hb]
  · rw [setPixelOp, updatePixel_outside _ a b s h]
    have : ¬ (a = (x : Nat) ∧ b = (y : Nat)) := fun hxy => h ⟨by omega, by omega, by omega, by omega⟩
    simp [this]

/-- After `clear_pixel` a pixel is lit if it was and is not the one cleared (R81). -/
theorem pixel_clearPixelOp (a b : Int) (s : State) (x : Fin 16) (y : Fin 24) :
    pixel (clearPixelOp a b s) x y = (pixel s x y && !decide (a = x ∧ b = y)) := by
  by_cases h : 0 ≤ a ∧ a < 16 ∧ 0 ≤ b ∧ b < 24
  · obtain ⟨ha0, ha1, hb0, hb1⟩ := h
    have e := updatePixel_inside (fun w => w &&& ~~~(1#16 <<< a.toNat)) ⟨a.toNat, by omega⟩ ⟨b.toNat, by omega⟩ s
    simp only [Int.toNat_of_nonneg ha0, Int.toNat_of_nonneg hb0] at e
    rw [clearPixelOp, e, pixel, memRead_memWrite]
    have hm := getLsbD_mask ⟨a.toNat, by omega⟩ x
    by_cases hy : y = ⟨b.toNat, by omega⟩
    · have hb : b = (y : Nat) := by rw [hy]; simp [hb0]
      have hx : (x = ⟨a.toNat, by omega⟩) ↔ a = (x : Nat) := by
        rw [Fin.ext_iff]; simp only; omega
      rw [if_pos hy, BitVec.getLsbD_and, BitVec.getLsbD_not, hm, ← hy]
      simp [pixel, hx, hb]
    · have hb : ¬ b = (y : Nat) := fun hb => hy (Fin.ext (by simp only; omega))
      rw [if_neg hy]
      simp [pixel, hb]
  · rw [clearPixelOp, updatePixel_outside _ a b s h]
    have : ¬ (a = (x : Nat) ∧ b = (y : Nat)) := fun hxy => h ⟨by omega, by omega, by omega, by omega⟩
    simp [this]

/-- A plotted point is a pixel set (R92). -/
theorem plot_eq (s : State) (p : Point) : plot s p = setPixelOp p.x p.y s := rfl

/-- The one spec lemma of plotting: exactly the on-panel points are set as well, and nothing else changes (R100,
R102). -/
theorem draws_plotAll (pts : List Point) (s : State) : Draws (· ∈ pts) s (plotAll pts s) := by
  induction pts generalizing s with
  | nil => exact ⟨OnlyFrame.refl s, fun x y => by simp [plotAll]⟩
  | cons p pts ih =>
    obtain ⟨hf, hp⟩ := ih (plot s p)
    refine ⟨(onlyFrame_updatePixel _ _ _ _).trans hf, fun x y => ?_⟩
    have e : plotAll (p :: pts) s = plotAll pts (plot s p) := rfl
    have hpt : (p.x = (x : Nat) ∧ p.y = (y : Nat)) ↔ (⟨(x : Nat), (y : Nat)⟩ : Point) = p := by
      constructor
      · rintro ⟨h1, h2⟩; cases p; simp_all
      · rintro rfl; exact ⟨rfl, rfl⟩
    rw [e, hp, plot_eq, pixel_setPixelOp, Bool.or_eq_true, decide_eq_true_eq, hpt, or_assoc]
    simp only [List.mem_cons]

/-- There is one surface, so a drawable's points are plotted the one way (R25). -/
@[simp] theorem drawOn_eq (surface : SurfaceRef) (pts : List Point) (s : State) :
    drawOn surface pts s = plotAll pts s := by
  cases surface; rfl

/-- Two states that differ from `s` in the shadow frame alone, pixel by pixel alike, are the same. -/
theorem eq_of_pixels {s t u : State} (ht : OnlyFrame s t) (hu : OnlyFrame s u)
    (h : ∀ x y, pixel t x y = pixel u x y) : t = u := by
  have hf : t.frame = u.frame := by
    apply Vector.ext
    intro j hj
    apply BitVec.eq_of_getLsbD_eq
    intro i hi
    exact h ⟨i, hi⟩ ⟨j, hj⟩
  rw [ht, hu, hf]

/-- The integers of a range (R96). -/
theorem mem_intRange (a b x : Int) : x ∈ intRange a b ↔ a ≤ x ∧ x ≤ b := by
  simp only [intRange, List.mem_map, List.mem_range]
  constructor
  · rintro ⟨i, hi, rfl⟩; omega
  · rintro ⟨h1, h2⟩; exact ⟨(x - a).toNat, by omega, by omega⟩

end Sys2Proof.Machine
end

