-- ==== Sys2Proof/Laws/Wire.lean ====
section
/-! SUPPORT. What bits do to the wire, and the one spec lemma of a whole frame: `sendFrame` from an idle scope is
`afterFrame`. -/

namespace Sys2Proof.Machine

/-- The bits of a value, most significant first, are those of its number (R31, R45). -/
theorem bitsMsb_eq_wireBits {w : Nat} (n : Nat) (v : BitVec w) : bitsMsb n v = wireBits n v.toNat := by
  induction n with
  | zero => rfl
  | succ n ih =>
    rw [bitsMsb, ih, wireBits, wireBits, List.range_succ_eq_map]
    simp only [List.map_cons, List.map_map, BitVec.getLsbD, Nat.add_sub_cancel, Nat.sub_zero]
    congr 1
    apply List.map_congr_left
    intro i hi
    simp only [Function.comp, Nat.succ_eq_add_one]
    congr 1
    omega

/-- The levels after bits were sent: `wr` high and `data` the last bit, if there was one (R63). -/
def levelsSent (bits : Bits) (l : PinLevels) : PinLevels where
  cs := l.cs
  wr := if bits = [] then l.wr else true
  data := bits.getLastD l.data
  rd := l.rd

/-- Bits sent while a frame is open and `cs` is low: three events each, each latched once, the receiver untouched
(R44, R63). -/
theorem foldl_bitCycle (bits : Bits) (w : Wire) (open_ : Bits) (hcs : w.levels.cs = false)
    (ho : w.openBits = some open_) :
    bits.foldl Wire.bitCycle w =
      { levels := levelsSent bits w.levels
        log := (bits.flatMap cycleEvents).reverse ++ w.log
        openBits := some (bits.reverse ++ open_)
        rx := w.rx } := by
  induction bits generalizing w open_ with
  | nil =>
    obtain ⟨l, log, o, r⟩ := w
    cases l
    simp_all [levelsSent]
  | cons b bits ih =>
    have hc : w.bitCycle b =
        { levels := { w.levels with data := b, wr := true }
          log := [(.wr, true), (.data, b), (.wr, false)] ++ w.log
          openBits := some (b :: open_)
          rx := w.rx } := by
      simp [Wire.bitCycle, Wire.write, PinLevels.set, nextOpen, rxAfter, closedBy, hcs, ho]
    rw [List.foldl_cons, ih (w.bitCycle b) (b :: open_) (by rw [hc]; exact hcs) (by rw [hc]), hc]
    cases bits <;> simp [levelsSent, cycleEvents, List.getLast?_cons]

/-- Bits sent never close a frame, so the receiver is untouched whatever the pins were (R103). -/
theorem foldl_bitCycle_rx (bits : Bits) (w : Wire) : (bits.foldl Wire.bitCycle w).rx = w.rx := by
  induction bits generalizing w with
  | nil => rfl
  | cons b bits ih => rw [List.foldl_cons, ih]; rfl

/-- An undefined receiver does not read frames (R116). -/
@[simp] theorem receive_unboot (bits : Bits) (r : Receiver) : r.unboot.receive bits = r.unboot := by
  cases r <;> rfl

/-- `begin` from an idle scope: `cs` falls and an empty frame opens (R61), if `cs` was high. -/
theorem beginScope_idle (op : Instr) (s : State) (h : s.txn = .idle) :
    beginScope op s = .next { pinWrite .cs false (checkBoot s) with txn := .active } := by
  simp [beginScope, h]

theorem beginScope_active (op : Instr) (s : State) (h : s.txn = .active) :
    beginScope op s = .fault (.nestedTransaction op) := by
  simp [beginScope, h]

/-- The spec lemma of a whole frame: from an idle scope it never fails, and it leaves exactly `afterFrame`
(R43, R44, R61, R63, R67, R103, R133). -/
theorem sendBits_between (bits : Bits) (s : State) (h : s.txn = .idle) :
    endScope (sendBits bits { pinWrite .cs false (checkBoot s) with txn := .active }) =
      .next (afterFrame bits s) := by
  have hopen : nextOpen s.levels s.wire.openBits (.cs, false) = some (heldBits s).reverse := by
    cases ho : s.wire.openBits <;> by_cases hcs : s.levels.cs = true <;>
      simp [nextOpen, heldBits, hcs, State.openFrame, ho]
  have hw := foldl_bitCycle bits ((checkBoot s).wire.write .cs false) _ (by rfl)
    (by rw [write_openBits, checkBoot_levels, checkBoot_openBits]; exact hopen)
  simp only [endScope, sendBits, pinWrite, hw]
  simp only [afterFrame, Host.Outcome.next.injEq]
  rw [show s.txn = Txn.idle from h, checkBoot_eq]
  congr 1
  simp only [Wire.write, rxAfter, closedBy, Option.map_some, List.reverse_append, List.reverse_reverse]
  by_cases hb : bootHolds s = true <;>
    simp [hb, levelsSent, levelsAfter, PinLevels.set, frameEvents, nextOpen, rxAfterFrame]

theorem sendFrame_idle (op : Instr) (bits : Bits) (s : State) (h : s.txn = .idle) :
    sendFrame op bits s = .next (afterFrame bits s) := by
  rw [sendFrame, beginScope_idle op s h, andThen_next, sendBits_between bits s h]

theorem sendFrame_active (op : Instr) (bits : Bits) (s : State) (h : s.txn = .active) :
    sendFrame op bits s = .fault (.nestedTransaction op) := by
  rw [sendFrame, beginScope_active op s h, andThen_fault]

/-! ## Bits sent, whatever the pins were -/

/-- The levels after bits were sent (R63). -/
theorem foldl_bitCycle_levels (bits : Bits) (w : Wire) :
    (bits.foldl Wire.bitCycle w).levels = levelsSent bits w.levels := by
  induction bits generalizing w with
  | nil => obtain ⟨⟨_, _, _, _⟩, _, _, _⟩ := w; rfl
  | cons b bits ih =>
    rw [List.foldl_cons, ih]
    cases bits <;> simp [levelsSent, Wire.bitCycle, PinLevels.set, List.getLast?_cons]

/-- The log after bits were sent: three events each (R63). -/
theorem foldl_bitCycle_log (bits : Bits) (w : Wire) :
    (bits.foldl Wire.bitCycle w).log = (bits.flatMap cycleEvents).reverse ++ w.log := by
  induction bits generalizing w with
  | nil => rfl
  | cons b bits ih => rw [List.foldl_cons, ih]; simp [Wire.bitCycle, cycleEvents]

/-- A frame of n bits is 3n + 2 events (R61, R63, R67). -/
theorem frameEvents_length (bits : Bits) : (frameEvents bits).length = 3 * bits.length + 2 := by
  have h : (bits.flatMap cycleEvents).length = 3 * bits.length := by
    induction bits with
    | nil => rfl
    | cons b bits ih => rw [List.flatMap_cons, List.length_append, ih]; simp [cycleEvents]; omega
  simp [frameEvents, h]

end Sys2Proof.Machine
end

