-- ==== Sys2Proof/Laws/Ops.lean ====
section
/-! SUPPORT. One spec lemma for each shared operation that emits frames: from an idle scope it answers `afterFrame`
of its frame, from a live scope it faults. -/

namespace Sys2Proof.Machine

/-! ## The bits of the two frame formats -/

/-- The command word's bits are 100, the opcode, 0 (R46). -/
theorem commandBits_eq (op : BitVec 8) : commandBits op = cmdFrame op.toNat := by
  revert op
  decide +kernel

/-- The header's bits are 101 and the address (R47). -/
theorem headerBits_eq (addr : BitVec 7) :
    bitsMsb 10 (headerWord addr) = [true, false, true] ++ wireBits 7 addr.toNat := by
  revert addr
  decide +kernel

theorem ramWriteBits_eq (addr : BitVec 7) (words : List Row) (residual : Bits) :
    ramWriteBits addr words residual = wramFrame addr.toNat words residual := by
  rw [ramWriteBits, wramFrame, headerBits_eq, show (bitsMsb 16 : Row → Bits) = fun w => wireBits 16 w.toNat from
    funext (bitsMsb_eq_wireBits 16)]

@[simp] theorem wireBits_length (n v : Nat) : (wireBits n v).length = n := by simp [wireBits]

/-! ## Shifts -/

/-- Two runs of bits are one (R70). -/
theorem sendBits_append (a b : Bits) (s : State) : sendBits (a ++ b) s = sendBits b (sendBits a s) := by
  simp [sendBits, List.foldl_append]

/-- A shift of a width in range, inside a live scope (R62). -/
theorem shiftBitsOp_active (n : Int) (v : Row) (s : State) (h : s.txn = .active) (h0 : 0 ≤ n) (h1 : n ≤ 16) :
    shiftBitsOp n v s = .next (sendBits (bitsMsb n.toNat v) s) := by
  simp only [shiftBitsOp, h]
  rw [if_neg (by omega)]

theorem endScope_active (s : State) (h : s.txn = .active) :
    endScope s = .next { pinWrite .cs true s with txn := .idle } := by
  simp [endScope, h]

/-! ## Commands -/

/-- A 12-bit word is sent whole (R71). -/
theorem commandWord_bits (op : BitVec 8) :
    bitsMsb (12 : Int).toNat ((commandWord op).zeroExtend 16) = cmdFrame op.toNat := by
  revert op
  decide +kernel

theorem sendCmd_idle (caller : Instr) (op : BitVec 8) (s : State) (h : s.txn = .idle) :
    sendCmd caller op s = .next (afterFrame (cmdFrame op.toNat) s) := by
  rw [sendCmd, beginScope_idle caller s h, andThen_next, shiftBitsOp_active _ _ _ rfl (by decide) (by decide),
    andThen_next, commandWord_bits, sendBits_between _ s h]

theorem sendCmd_active (caller : Instr) (op : BitVec 8) (s : State) (h : s.txn = .active) :
    sendCmd caller op s = .fault (.nestedTransaction caller) := by
  rw [sendCmd, beginScope_active caller s h, andThen_fault]

/-! ## RAM writes -/

/-- A row of a frame after some rows were set. -/
theorem getElem_foldl_set (ys : List (Fin 24)) (v : Row) (f : Vector Row 24) (z : Fin 24) :
    (ys.foldl (fun (f : Vector Row 24) (y : Fin 24) => f.set y v) f)[z] = if z ∈ ys then v else f[z] := by
  induction ys generalizing f with
  | nil => simp
  | cons y ys ih =>
    rw [List.foldl_cons, ih]
    by_cases hz : z ∈ ys
    · simp [hz]
    · by_cases hy : z = y
      · subst hy; simp [hz]
      · have : (y : Nat) ≠ z := fun e => hy (Fin.ext e.symm)
        simp [hz, hy, this]

/-- Every row set to the same word. -/
theorem foldl_set_all (ys : List (Fin 24)) (h : ∀ z, z ∈ ys) (v : Row) (f : Vector Row 24) :
    ys.foldl (fun (f : Vector Row 24) (y : Fin 24) => f.set y v) f = Vector.replicate 24 v := by
  apply Vector.ext
  intro i hi
  have e := getElem_foldl_set ys v f ⟨i, hi⟩
  rw [if_pos (h _)] at e
  rw [Vector.getElem_replicate]
  exact e

/-- The row loop inside a live scope: the words of the rows, read before they are set (R78, R79, R82). -/
theorem sendRows_active (word : Row → Row) (v : Row) (ys : List (Fin 24)) (s : State) (h : s.txn = .active)
    (hn : ys.Nodup) :
    sendRows word v ys s =
      .next (setFrame (ys.foldl (fun (f : Vector Row 24) (y : Fin 24) => f.set y v) s.frame)
        (sendBits (ys.flatMap fun y => wireBits 16 (word (memRead y s)).toNat) s)) := by
  induction ys generalizing s with
  | nil => rfl
  | cons y ys ih =>
    obtain ⟨hy, hn⟩ := List.nodup_cons.mp hn
    rw [sendRows, shiftBitsOp_active _ _ _ h (by decide) (by decide), andThen_next, ih _ (by simpa using h) hn]
    have hread : (ys.flatMap fun z => wireBits 16 (word (memRead z (memWrite y v
          (sendBits (bitsMsb (16 : Int).toNat (word (memRead y s))) s)))).toNat) =
        ys.flatMap fun z => wireBits 16 (word (memRead z s)).toNat := by
      rw [List.flatMap_def, List.flatMap_def]
      refine congrArg List.flatten (List.map_congr_left fun z hz => ?_)
      have hzy : z ≠ y := fun e => hy (e ▸ hz)
      rw [memRead_memWrite, if_neg hzy]
      simp only [memRead, sendBits_frame]
    rw [hread, List.flatMap_cons, sendBits_append, bitsMsb_eq_wireBits, memWrite_eq, sendBits_setFrame,
      setFrame_setFrame, setFrame_frame, sendBits_frame, List.foldl_cons]
    rfl

theorem finRange_rows (f : Vector Row 24) : (List.finRange 24).map (fun y => f[y]) = f.toList := by
  apply List.ext_getElem
  · simp
  · intro i h1 h2
    simp

/-- The header that `writeHeader 0` shifts out (R77). -/
theorem writeHeader_bits : bitsMsb (3 : Int).toNat writeId ++ bitsMsb (7 : Int).toNat ((0 : BitVec 7).zeroExtend 16) =
    [true, false, true] ++ wireBits 7 0 := by
  decide

/-- The rows' words as one payload. -/
theorem rows_payload (word : Row → Row) (s : State) :
    ((List.finRange 24).flatMap fun y => wireBits 16 (word (memRead y s)).toNat) =
      (s.frame.toList.map word).flatMap fun w => wireBits 16 w.toNat := by
  rw [← finRange_rows s.frame, List.map_map, List.flatMap_map]
  rfl

/-- `end` inside a live scope does not read the shadow frame (R67). -/
theorem endScope_setFrame (f : Vector Row 24) (s t : State) (h : s.txn = .active) (e : endScope s = .next t) :
    endScope (setFrame f s) = .next (setFrame f t) := by
  rw [endScope_active s h, Host.Outcome.next.injEq] at e
  rw [endScope_active (setFrame f s) h, ← e]
  rfl

/-- A whole RAM write from an idle scope: one frame of all 24 words, and every row set (R78, R79, R82). -/
theorem ramWriteOp_idle (caller : Instr) (word : Row → Row) (v : Row) (s : State) (h : s.txn = .idle) :
    ramWriteOp caller word v s =
      .next (setFrame (Vector.replicate 24 v) (afterFrame (wramFrame 0 (s.frame.toList.map word) []) s)) := by
  have hend := sendBits_between (wramFrame 0 (s.frame.toList.map word) []) s h
  rw [wramFrame, List.append_nil, ← rows_payload, ← writeHeader_bits, sendBits_append, sendBits_append] at hend
  rw [ramWriteOp, beginScope_idle caller s h, andThen_next, writeHeader,
    shiftBitsOp_active _ _ _ rfl (by decide) (by decide), andThen_next,
    shiftBitsOp_active _ _ _ rfl (by decide) (by decide), andThen_next,
    sendRows_active _ _ _ _ rfl (List.nodup_finRange 24), andThen_next,
    foldl_set_all _ List.mem_finRange]
  rw [wramFrame, List.append_nil, ← rows_payload, ← writeHeader_bits]
  simp only [memRead, sendBits_frame, pinWrite_frame, checkBoot_frame] at hend ⊢
  exact endScope_setFrame _ _ _ rfl hend

theorem ramWriteOp_active (caller : Instr) (word : Row → Row) (v : Row) (s : State) (h : s.txn = .active) :
    ramWriteOp caller word v s = .fault (.nestedTransaction caller) := by
  rw [ramWriteOp, beginScope_active caller s h, andThen_fault]

/-- The words `clear` and `fill` send do not depend on the frame. -/
theorem map_const_rows (f : Vector Row 24) (v : Row) :
    f.toList.map (fun _ => v) = (Vector.replicate 24 v).toList := by
  simp [List.map_const']

theorem driverClear_idle (caller : Instr) (s : State) (h : s.txn = .idle) :
    driverClear caller s = .next (setFrame blank (afterFrame (wramFrame 0 blank.toList []) s)) := by
  rw [driverClear, ramWriteOp_idle caller _ _ s h, map_const_rows]
  rfl

theorem driverFill_idle (caller : Instr) (s : State) (h : s.txn = .idle) :
    driverFill caller s = .next (setFrame allOnes (afterFrame (wramFrame 0 allOnes.toList []) s)) := by
  rw [driverFill, ramWriteOp_idle caller _ _ s h, map_const_rows]
  rfl

theorem driverFlush_idle (caller : Instr) (s : State) (h : s.txn = .idle) :
    driverFlush caller s = .next (setFrame blank (afterFrame (wramFrame 0 s.frame.toList []) s)) := by
  rw [driverFlush, ramWriteOp_idle caller _ _ s h, List.map_id]
  rfl

/-! ## Initialization and brightness -/

theorem afterFrames_cons (bits : Bits) (frames : List Bits) (s : State) :
    afterFrames (bits :: frames) s = afterFrames frames (afterFrame bits s) := rfl

@[simp] theorem afterFrames_txn (frames : List Bits) (s : State) : (afterFrames frames s).txn = s.txn := by
  induction frames generalizing s with
  | nil => rfl
  | cons b bs ih => rw [afterFrames_cons, ih]; rfl

/-- The state after several frames keeps the shadow frame. -/
@[simp] theorem afterFrames_frame (frames : List Bits) (s : State) : (afterFrames frames s).frame = s.frame := by
  induction frames generalizing s with
  | nil => rfl
  | cons b bs ih => rw [afterFrames_cons, ih]; rfl

theorem driverInit_idle (caller : Instr) (s : State) (h : s.txn = .idle) :
    driverInit caller s = .next (setFrame blank (afterFrames initFrames s)) := by
  simp only [driverInit, sendCmd_idle, driverClear_idle, afterFrame_txn, h, andThen_next]
  rfl

theorem driverInit_active (caller : Instr) (s : State) (h : s.txn = .active) :
    driverInit caller s = .fault (.nestedTransaction caller) := by
  rw [driverInit, sendCmd_active _ _ _ h, andThen_fault]

/-- A level in 0..15 is the low nibble of its opcode (R50). -/
theorem brightnessOpcode_toNat (l : BitVec 4) : (brightnessOpcode l).toNat = 0xA0 + l.toNat := by
  revert l
  decide

theorem driverBrightness_idle (caller : Instr) (level : Int) (s : State) (h : s.txn = .idle) (h0 : 0 ≤ level)
    (h1 : level ≤ 15) :
    driverBrightness caller level s = .next (afterFrame (cmdFrame (0xA0 + level.toNat)) s) := by
  simp only [driverBrightness, brightnessOf, h0, h1, and_self, if_true, sendCmd_idle _ _ _ h, brightnessOpcode_toNat]
  rw [BitVec.toNat_ofNat, Nat.mod_eq_of_lt (by omega)]

theorem driverBrightness_outside (caller : Instr) (level : Int) (s : State) (h : ¬ (0 ≤ level ∧ level ≤ 15)) :
    driverBrightness caller level s = .next s := by
  simp only [driverBrightness, brightnessOf, if_neg h]

end Sys2Proof.Machine
end

