-- ==== Sys2Proof/Laws/Exec.lean ====
section
/-! SUPPORT. What any call can do, said once: the shapes of the next state. -/

namespace Sys2Proof.Machine

/-- The ways a call can change the state. -/
inductive Effect (i : Instr) (s t : State) : Prop where
  /-- Whole frames from an idle scope, and a new shadow frame. -/
  | frames (idle : s.txn = .idle) (bits : List Bits) (f : Vector Row 24) (h : t = setFrame f (afterFrames bits s))
  /-- The shadow frame alone. -/
  | shadow (h : OnlyFrame s t)
  /-- A pin-group operation. -/
  | pins (members : List Pin) (op : PinOp) (hi : i = .pinGroupOp members op) (h : t = applyPinGroup members op s)
  /-- A pin-group read. -/
  | read (members : List Pin) (hi : i = .pinGroupRead members)
      (h : t = { s with readOut := some (readPinGroup members s) })
  /-- The opening of a scope. -/
  | opens (hi : i = .beginTxn) (idle : s.txn = .idle)
      (h : t = { pinWrite .cs false (checkBoot s) with txn := .active })
  /-- Bits inside a live scope. -/
  | shifts (active : s.txn = .active) (bits : Bits) (h : t = sendBits bits s)
  /-- The closing of a scope. -/
  | closes (hi : i = .endTxn) (active : s.txn = .active) (h : t = { pinWrite .cs true s with txn := .idle })
  /-- The driver's construction. -/
  | constructs (hi : i = .constructDriver)
      (h : t = { setFrame (Vector.ofFn Config.shadowInit) s with txn := .idle })

/-- A call that sends whole frames when idle and faults when not. -/
theorem Effect.of_frames {i : Instr} {s t : State} {r : Result} (bits : List Bits) (f : Vector Row 24)
    (hidle : s.txn = .idle → r = .next (setFrame f (afterFrames bits s)))
    (hactive : s.txn = .active → ∃ e, r = .fault e) (h : r = .next t) : Effect i s t := by
  cases ht : s.txn with
  | idle =>
    rw [hidle ht, Host.Outcome.next.injEq] at h
    exact .frames ht bits f h.symm
  | active =>
    obtain ⟨e, he⟩ := hactive ht
    rw [he] at h
    cases h

theorem effect_sendFrame {i : Instr} (op : Instr) (bits : Bits) {s t : State} (h : sendFrame op bits s = .next t) :
    Effect i s t :=
  .of_frames [bits] s.frame (fun hi => sendFrame_idle op bits s hi) (fun ha => ⟨_, sendFrame_active op bits s ha⟩) h

theorem effect_sendCmd {i : Instr} (op : Instr) (b : BitVec 8) {s t : State} (h : sendCmd op b s = .next t) :
    Effect i s t :=
  .of_frames [cmdFrame b.toNat] s.frame (fun hi => sendCmd_idle op b s hi) (fun ha => ⟨_, sendCmd_active op b s ha⟩) h

theorem effect_ramWriteOp {i : Instr} (op : Instr) (word : Row → Row) (v : Row) {s t : State}
    (h : ramWriteOp op word v s = .next t) : Effect i s t :=
  .of_frames [wramFrame 0 (s.frame.toList.map word) []] _ (fun hi => ramWriteOp_idle op word v s hi)
    (fun ha => ⟨_, ramWriteOp_active op word v s ha⟩) h

theorem effect_driverBrightness {i : Instr} (op : Instr) (level : Int) {s t : State}
    (h : driverBrightness op level s = .next t) : Effect i s t := by
  unfold driverBrightness at h
  split at h
  · exact effect_sendCmd _ _ h
  · rw [Host.Outcome.next.injEq] at h
    exact .shadow (h ▸ OnlyFrame.refl s)

theorem effect_withDrawable {i : Instr} (d : Drawable) (surface : SurfaceRef) (pts : List Point) {s t : State}
    (h : withDrawable d (.next (drawOn surface pts s)) = .next t) : Effect i s t := by
  rw [drawOn_eq, withDrawable] at h
  split at h
  · rw [Host.Outcome.next.injEq] at h
    exact .shadow (h ▸ (draws_plotAll pts s).1)
  · cases h

/-- Zeroing rows one after another never leaves the shadow frame (R89). -/
theorem onlyFrame_foldl_memWrite (ys : List (Fin 24)) (v : Row) (s : State) :
    OnlyFrame s (ys.foldl (fun s y => memWrite y v s) s) := by
  induction ys generalizing s with
  | nil => exact OnlyFrame.refl s
  | cons y ys ih => exact (onlyFrame_memWrite y v s).trans (ih _)

/-- The inversion lemma of `exec`: every next state has one of the shapes above. -/
theorem exec_effect {i : Instr} {s t : State} (h : exec i s = .next t) : Effect i s t := by
  cases i <;> simp only [exec] at h
  case sysDis => exact effect_sendFrame _ _ h
  case sysEn => exact effect_sendFrame _ _ h
  case ledOff => exact effect_sendFrame _ _ h
  case ledOn => exact effect_sendFrame _ _ h
  case blinkOff => exact effect_sendFrame _ _ h
  case masterMode => exact effect_sendFrame _ _ h
  case comOption => exact effect_sendFrame _ _ h
  case brightnessFrame => exact effect_sendFrame _ _ h
  case cmdUnlisted => exact effect_sendFrame _ _ h
  case writeRam => exact effect_sendFrame _ _ h
  case pinGroupOp members op => exact .pins members op rfl (Host.Outcome.next.inj h).symm
  case pinGroupRead members => exact .read members rfl (Host.Outcome.next.inj h).symm
  case beginTxn =>
    cases ht : s.txn with
    | idle =>
      rw [execBeginTxn, beginScope_idle _ _ ht, Host.Outcome.next.injEq] at h
      exact .opens rfl ht h.symm
    | active => rw [execBeginTxn, beginScope_active _ _ ht] at h; cases h
  case shiftBits n v =>
    unfold execShiftBits at h
    split at h
    · cases ht : s.txn with
      | idle => simp [shiftBitsOp, ht] at h
      | active =>
        simp only [shiftBitsOp, ht] at h
        split at h
        · cases h
        · exact .shifts ht _ (Host.Outcome.next.inj h).symm
    · cases h
  case endTxn =>
    cases ht : s.txn with
    | idle => simp [execEndTxn, endScope, ht] at h
    | active =>
      rw [execEndTxn, endScope_active _ ht, Host.Outcome.next.injEq] at h
      exact .closes rfl ht h.symm
  case cmd op =>
    unfold execCmd at h
    split at h
    · exact effect_sendCmd _ _ h
    · cases h
  case initDriver =>
    exact .of_frames initFrames blank (fun hi => driverInit_idle _ s hi) (fun ha => ⟨_, driverInit_active _ s ha⟩) h
  case shutdownLeds => exact effect_sendCmd _ _ h
  case shutdown => exact effect_sendCmd _ _ h
  case setBrightness level => exact effect_driverBrightness _ level h
  case constructDriver => exact .constructs rfl (Host.Outcome.next.inj h).symm
  case clear => exact effect_ramWriteOp _ _ _ h
  case fill => exact effect_ramWriteOp _ _ _ h
  case flush => exact effect_ramWriteOp _ _ _ h
  case setPixel x y => exact .shadow ((Host.Outcome.next.inj h) ▸ onlyFrame_updatePixel _ x y s)
  case clearPixel x y => exact .shadow ((Host.Outcome.next.inj h) ▸ onlyFrame_updatePixel _ x y s)
  case replaceFrame w =>
    unfold execReplaceFrame at h
    split at h
    · exact .shadow ((Host.Outcome.next.inj h) ▸ onlyFrame_setFrame _ s)
    · cases h
  case surfaceInit =>
    refine .of_frames (initFrames ++ [cmdFrame 0xAF]) blank (fun hi => ?_) (fun ha => ⟨.nestedTransaction .surfaceInit, ?_⟩) h
    · rw [execSurfaceInit, driverInit_idle _ s hi, andThen_next,
        driverBrightness_idle _ 15 _ (by simpa using hi) (by decide) (by decide)]
      rfl
    · rw [execSurfaceInit, driverInit_active _ s ha, andThen_fault]
  case surfaceWrite p c =>
    cases c with
    | off => exact .shadow ((Host.Outcome.next.inj h) ▸ OnlyFrame.refl s)
    | lit code =>
      exact .shadow ((Host.Outcome.next.inj h) ▸ onlyFrame_updatePixel (fun w => w ||| (1#16 <<< p.x.toNat)) p.x p.y s)
  case surfaceFlush => exact effect_ramWriteOp _ _ _ h
  case surfaceClear => exact .shadow ((Host.Outcome.next.inj h) ▸ onlyFrame_foldl_memWrite _ _ s)
  case lineDraw d => exact effect_withDrawable _ _ _ h
  case rectDraw d => exact effect_withDrawable _ _ _ h
  case rectFill d => exact effect_withDrawable _ _ _ h
  case circleDraw d => exact effect_withDrawable _ _ _ h
  case drawableCall c =>
    unfold execDrawableCall at h
    split at h
    · exact .shadow ((Host.Outcome.next.inj h) ▸ OnlyFrame.refl s)
    · cases h

/-! ## Steps -/

/-- What a step can do: nothing, a call, or a raw frame sent as it is (R11, R21, log 4). -/
theorem step_effect {s t : State} (h : step s = .next t) :
    t = s ∨ ∃ rest : List HostCall, (∃ i, exec i { s with pending := rest } = .next t) ∨
      (s.txn = .idle ∧ ∃ bits, t = afterFrame bits { s with pending := rest }) := by
  unfold step fetch at h
  cases hp : s.pending with
  | nil => simp only [hp, Host.Outcome.next.injEq] at h; exact .inl h.symm
  | cons c rest =>
    refine .inr ⟨rest, ?_⟩
    cases c with
    | call i => simp only [hp, runCall] at h; exact .inl ⟨i, h⟩
    | frame bits =>
      simp only [hp, runCall, runFrame] at h
      split at h
      · exact .inl ⟨_, h⟩
      · cases ht : s.txn with
        | idle =>
          rw [rawFrame, sendFrame_idle _ _ _ (by exact ht), Host.Outcome.next.injEq] at h
          exact .inr ⟨rfl, bits, by rw [← h, ht]⟩
        | active => rw [rawFrame, sendFrame_active _ _ _ (by exact ht)] at h; cases h

/-! ## Invariants of the wire -/

/-- The updates that make up everything a call does to the pins, the log and the receiver: a pin write, and the receiver
becoming undefined at a run's first transaction begun without the boot requirement. A property they keep is an invariant of
the wire. -/
structure WireClosed (P : Wire → Prop) : Prop where
  write : ∀ w p v, P w → P (w.write p v)
  unboot : ∀ w, P w → P { w with rx := w.rx.unboot }

theorem WireClosed.bits {P : Wire → Prop} (c : WireClosed P) (bits : Bits) (w : Wire) (h : P w) :
    P (bits.foldl Wire.bitCycle w) := by
  induction bits generalizing w with
  | nil => exact h
  | cons b bits ih => exact ih _ (c.write _ _ _ (c.write _ _ _ (c.write _ _ _ h)))

theorem WireClosed.checkBoot {P : Wire → Prop} (c : WireClosed P) (s : State) (h : P s.wire) :
    P (checkBoot s).wire := by
  rw [checkBoot_eq]
  by_cases hb : bootHolds s = true
  · simp only [hb, if_true]; exact h
  · simp only [hb, Bool.false_eq_true, if_false]; exact c.unboot _ h

theorem WireClosed.watchBoot {P : Wire → Prop} (c : WireClosed P) (e : Event) (s : State) (h : P s.wire) :
    P (watchBoot e s).wire := by
  rcases watchBoot_cases e s with ⟨b, hb, -⟩ | ⟨-, hb⟩
  · rw [hb]; exact h
  · rw [hb]; exact c.unboot _ h

theorem WireClosed.afterFrame {P : Wire → Prop} (c : WireClosed P) (bits : Bits) (s : State) (hi : s.txn = .idle)
    (h : P s.wire) : P (afterFrame bits s).wire := by
  have e := sendBits_between bits s hi
  rw [endScope_active _ rfl] at e
  rw [← congrArg State.wire (Host.Outcome.next.inj e)]
  exact c.write _ _ _ (c.bits _ _ (c.write _ _ _ (c.checkBoot s h)))

theorem WireClosed.afterFrames {P : Wire → Prop} (c : WireClosed P) (frames : List Bits) (s : State)
    (hi : s.txn = .idle) (h : P s.wire) : P (afterFrames frames s).wire := by
  induction frames generalizing s with
  | nil => exact h
  | cons b bs ih => exact ih _ hi (c.afterFrame b s hi h)

theorem WireClosed.pinGroup {P : Wire → Prop} (c : WireClosed P) (members : List Pin) (op : PinOp) (s : State)
    (h : P s.wire) : P (applyPinGroup members op s).wire := by
  unfold applyPinGroup
  induction members generalizing s with
  | nil => exact h
  | cons p ps ih =>
    apply ih
    cases op with
    | write b => exact c.write _ _ _ (c.watchBoot _ _ h)
    | _ => exact h

/-- An invariant of the wire is kept by every call. -/
theorem WireClosed.exec {P : Wire → Prop} (c : WireClosed P) {i : Instr} {s t : State} (h : exec i s = .next t)
    (hp : P s.wire) : P t.wire := by
  cases exec_effect h with
  | frames idle bits f h => subst h; exact c.afterFrames bits s idle hp
  | shadow h => rw [h]; exact hp
  | pins members op _ h => subst h; exact c.pinGroup members op s hp
  | read _ _ h => subst h; exact hp
  | opens _ _ h => subst h; exact c.write _ _ _ (c.checkBoot s hp)
  | shifts _ bits h => subst h; exact c.bits bits _ hp
  | closes _ _ h => subst h; exact c.write _ _ _ hp
  | constructs _ h => subst h; exact hp

/-- An invariant of the wire is kept by every step. -/
theorem WireClosed.step {P : Wire → Prop} (c : WireClosed P) {s t : State} (h : step s = .next t) (hp : P s.wire) :
    P t.wire := by
  rcases step_effect h with rfl | ⟨rest, ⟨i, he⟩ | ⟨ht, bits, rfl⟩⟩
  · exact hp
  · exact c.exec he hp
  · exact c.afterFrame bits { s with pending := rest } ht hp

end Sys2Proof.Machine
end

