-- ==== Sys2Proof/Laws/Raster.lean ====
section
/-! SUPPORT. What the line loop computes, said once for each major axis, and what the circle loop plots. -/

namespace Sys2Proof.Machine

/-- Two points next to each other, and not the same. -/
def Adjacent (p q : Point) : Prop := (p.x - q.x).natAbs ≤ 1 ∧ (p.y - q.y).natAbs ≤ 1 ∧ p ≠ q

/-- What a run of the line loop gives: `n + 1` points from `p` to the far endpoint, each next to the one before, each
between the two endpoints, at most `i` steps of x and `j` of y away from `p`. -/
structure LineRun (c : LineSetup) (n i j : Nat) (p : Point) (ps : List Point) : Prop where
  length : ps.length = n + 1
  head : ps.head? = some p
  last : ps.getLast? = some ⟨c.x1, c.y1⟩
  chain : ps.IsChain Adjacent
  box : ∀ r ∈ ps, ∃ a b : Nat, a ≤ i ∧ b ≤ j ∧ r.x = p.x + a * c.sx ∧ r.y = p.y + b * c.sy

/-- One step before a run. -/
theorem LineRun.cons {c : LineSetup} {n i j a b : Nat} {p q : Point} {ps : List Point} (h : LineRun c n i j q ps)
    (hx : q.x = p.x + a * c.sx) (hy : q.y = p.y + b * c.sy) (ha : a ≤ 1) (hb : b ≤ 1) (hab : a + b ≠ 0)
    (hsx : c.sx = 1 ∨ c.sx = -1) (hsy : c.sy = 1 ∨ c.sy = -1) : LineRun c (n + 1) (i + a) (j + b) p (p :: ps) := by
  obtain ⟨h1, h2, h3, h4, h5⟩ := h
  obtain ⟨r, rs, rfl⟩ : ∃ r rs, ps = r :: rs := by
    cases ps with
    | nil => simp at h2
    | cons r rs => exact ⟨r, rs, rfl⟩
  simp only [List.head?_cons, Option.some.injEq] at h2
  subst h2
  refine ⟨by simp [h1], rfl, by simpa [List.getLast?_cons] using h3, ?_, ?_⟩
  · refine List.isChain_cons_cons.mpr ⟨⟨?_, ?_, ?_⟩, h4⟩
    · rcases hsx with e | e <;> rw [hx, e] <;> omega
    · rcases hsy with e | e <;> rw [hy, e] <;> omega
    · intro e
      have e1 := congrArg Point.x e
      have e2 := congrArg Point.y e
      rw [hx] at e1
      rw [hy] at e2
      rcases hsx with e | e <;> rcases hsy with f | f <;> rw [e] at e1 <;> rw [f] at e2 <;> omega
  · intro t ht
    rcases List.mem_cons.mp ht with rfl | ht
    · exact ⟨0, 0, by omega, by omega, by simp, by simp⟩
    · obtain ⟨a', b', ha', hb', e1, e2⟩ := h5 t ht
      refine ⟨a' + a, b' + b, by omega, by omega, ?_, ?_⟩
      · rw [e1, hx]; push_cast; ring
      · rw [e2, hy]; push_cast; ring

/-- The loop when x is the major axis: with `k` steps of x and `q` of y to go, it takes exactly `k` steps (R93, R101). -/
theorem lineLoop_xMajor (c : LineSetup) (hsx : c.sx = 1 ∨ c.sx = -1) (hsy : c.sy = 1 ∨ c.sy = -1) (hmaj : -c.dy ≤ c.dx)
    (hdy : c.dy ≤ 0) (k q : Nat) (p : Point) (err : Int) (hx : c.x1 = p.x + k * c.sx) (hy : c.y1 = p.y + q * c.sy)
    (herr : err = c.dx + c.dy - q * c.dx - k * c.dy) (hlow : c.dy ≤ 2 * err) (hkd : (k : Int) ≤ c.dx)
    (hqd : (q : Int) ≤ -c.dy) : LineRun c k k q p (lineLoop c k p err) := by
  induction k generalizing q p err with
  | zero =>
    have hq : q = 0 := by
      rcases Nat.eq_zero_or_pos q with h | h
      · exact h
      · have h1 : (1 : Int) ≤ q := by omega
        have h2 : c.dx ≤ q * c.dx := by nlinarith
        push_cast at herr
        nlinarith
    subst hq
    refine ⟨rfl, rfl, ?_, by simp [lineLoop], ?_⟩
    · cases p; simp_all [lineLoop]
    · intro r hr
      rw [lineLoop, List.mem_singleton] at hr
      exact ⟨0, 0, by omega, by omega, by simp [hr], by simp [hr]⟩
  | succ k ih =>
    have hne : ¬ (p.x = c.x1 ∧ p.y = c.y1) := by
      rintro ⟨e, -⟩
      rw [hx] at e
      push_cast at e
      rcases hsx with f | f <;> rw [f] at e <;> omega
    rw [lineLoop, if_neg hne]
    simp only [ge_iff_le, decide_eq_true hlow, if_true, decide_eq_true_eq]
    push_cast at herr hx hkd
    by_cases hY : 2 * err ≤ c.dx
    · have hq : q ≠ 0 := by
        rintro rfl
        push_cast at herr
        have h1 : (0 : Int) ≤ k * (-c.dy) := mul_nonneg (by omega) (by omega)
        nlinarith
      obtain ⟨q, rfl⟩ := Nat.exists_eq_succ_of_ne_zero hq
      push_cast at herr hy hqd
      rw [if_pos hY, if_pos hY]
      exact (ih q ⟨p.x + c.sx, p.y + c.sy⟩ (err + c.dy + c.dx) (by simp only; rw [hx]; ring) (by simp only; rw [hy]; ring)
        (by rw [herr]; ring) (by omega) (by omega) (by omega)).cons (a := 1) (b := 1) (by simp) (by simp) (by omega)
        (by omega) (by omega) hsx hsy
    · rw [if_neg hY, if_neg hY]
      exact (ih q ⟨p.x + c.sx, p.y⟩ (err + c.dy + 0) (by simp only; rw [hx]; ring) hy
        (by rw [herr]; ring) (by omega) (by omega) hqd).cons (a := 1) (b := 0) (by simp) (by simp) (by omega)
        (by omega) (by omega) hsx hsy

/-- The loop when y is the major axis: with `k` steps of x and `q` of y to go, it takes exactly `q` steps (R93, R101). -/
theorem lineLoop_yMajor (c : LineSetup) (hsx : c.sx = 1 ∨ c.sx = -1) (hsy : c.sy = 1 ∨ c.sy = -1) (hmaj : c.dx ≤ -c.dy)
    (hdx : 0 ≤ c.dx) (k q : Nat) (p : Point) (err : Int) (hx : c.x1 = p.x + k * c.sx) (hy : c.y1 = p.y + q * c.sy)
    (herr : err = c.dx + c.dy - q * c.dx - k * c.dy) (hhigh : 2 * err ≤ c.dx) (hkd : (k : Int) ≤ c.dx)
    (hqd : (q : Int) ≤ -c.dy) : LineRun c q k q p (lineLoop c q p err) := by
  induction q generalizing k p err with
  | zero =>
    have hk : k = 0 := by
      rcases Nat.eq_zero_or_pos k with h | h
      · exact h
      · have h1 : (1 : Int) ≤ k := by omega
        have h2 : -c.dy ≤ k * (-c.dy) := by nlinarith
        push_cast at herr
        nlinarith
    subst hk
    refine ⟨rfl, rfl, ?_, by simp [lineLoop], ?_⟩
    · cases p; simp_all [lineLoop]
    · intro r hr
      rw [lineLoop, List.mem_singleton] at hr
      exact ⟨0, 0, by omega, by omega, by simp [hr], by simp [hr]⟩
  | succ q ih =>
    have hne : ¬ (p.x = c.x1 ∧ p.y = c.y1) := by
      rintro ⟨-, e⟩
      rw [hy] at e
      push_cast at e
      rcases hsy with f | f <;> rw [f] at e <;> omega
    rw [lineLoop, if_neg hne]
    simp only [ge_iff_le, decide_eq_true hhigh, if_true, decide_eq_true_eq]
    push_cast at herr hy hqd
    by_cases hX : c.dy ≤ 2 * err
    · have hk : k ≠ 0 := by
        rintro rfl
        push_cast at herr
        have h1 : (0 : Int) ≤ q * c.dx := mul_nonneg (by omega) hdx
        nlinarith
      obtain ⟨k, rfl⟩ := Nat.exists_eq_succ_of_ne_zero hk
      push_cast at herr hx hkd
      rw [if_pos hX, if_pos hX]
      exact (ih k ⟨p.x + c.sx, p.y + c.sy⟩ (err + c.dy + c.dx) (by simp only; rw [hx]; ring) (by simp only; rw [hy]; ring)
        (by rw [herr]; ring) (by omega) (by omega) (by omega)).cons (a := 1) (b := 1) (by simp) (by simp) (by omega)
        (by omega) (by omega) hsx hsy
    · rw [if_neg hX, if_neg hX]
      exact (ih k ⟨p.x, p.y + c.sy⟩ (err + 0 + c.dx) hx (by simp only; rw [hy]; ring)
        (by rw [herr]; ring) (by omega) hkd (by omega)).cons (a := 0) (b := 1) (by simp) (by simp) (by omega)
        (by omega) (by omega) hsx hsy

/-- The spec lemma of `RasterLine` (R93, R101). -/
theorem linePoints_run (p0 p1 : Point) :
    LineRun (lineSetup p0 p1) (lineSteps p0 p1) (p1.x - p0.x).natAbs (p1.y - p0.y).natAbs p0 (linePoints p0 p1) := by
  have hsx : (lineSetup p0 p1).sx = 1 ∨ (lineSetup p0 p1).sx = -1 := by simp only [lineSetup]; split <;> simp
  have hsy : (lineSetup p0 p1).sy = 1 ∨ (lineSetup p0 p1).sy = -1 := by simp only [lineSetup]; split <;> simp
  have hx : (lineSetup p0 p1).x1 = p0.x + (p1.x - p0.x).natAbs * (lineSetup p0 p1).sx := by
    simp only [lineSetup]; split <;> omega
  have hy : (lineSetup p0 p1).y1 = p0.y + (p1.y - p0.y).natAbs * (lineSetup p0 p1).sy := by
    simp only [lineSetup]; split <;> omega
  have hdx : (lineSetup p0 p1).dx = (p1.x - p0.x).natAbs := rfl
  have hdy : (lineSetup p0 p1).dy = -((p1.y - p0.y).natAbs : Int) := rfl
  rw [linePoints, lineSteps]
  rcases Nat.le_total (p1.y - p0.y).natAbs (p1.x - p0.x).natAbs with h | h
  · rw [Nat.max_eq_left h]
    exact lineLoop_xMajor _ hsx hsy (by rw [hdx, hdy]; omega) (by rw [hdy]; omega) _ _ _ _ hx hy
      (by rw [hdx, hdy]; ring) (by rw [hdx, hdy]; omega) (by rw [hdx]) (by rw [hdy]; omega)
  · rw [Nat.max_eq_right h]
    exact lineLoop_yMajor _ hsx hsy (by rw [hdx, hdy]; omega) (by rw [hdx]; omega) _ _ _ _ hx hy
      (by rw [hdx, hdy]; ring) (by rw [hdx, hdy]; omega) (by rw [hdx]) (by rw [hdy]; omega)

/-! ## The major axis -/

/-- Steps of at most one lead no farther than their number. -/
theorem natAbs_last_sub_head (l : List Int) (a b : Int) (h : l.IsChain fun x y => (x - y).natAbs ≤ 1)
    (ha : l.head? = some a) (hb : l.getLast? = some b) : (b - a).natAbs + 1 ≤ l.length := by
  induction l generalizing a with
  | nil => simp at ha
  | cons x l ih =>
    simp only [List.head?_cons, Option.some.injEq] at ha
    subst ha
    cases l with
    | nil =>
      simp only [List.getLast?_singleton, Option.some.injEq] at hb
      simp [hb]
    | cons y l =>
      obtain ⟨h1, h2⟩ := List.isChain_cons_cons.mp h
      have := ih y h2 rfl (by simpa [List.getLast?_cons_cons] using hb)
      simp only [List.length_cons] at *
      omega

/-- A walk in steps of at most one that has no step to spare takes each value on its way once, in order. -/
theorem steady_walk (l : List Int) (a sign : Int) (n : Nat) (hs : sign = 1 ∨ sign = -1)
    (h : l.IsChain fun x y => (x - y).natAbs ≤ 1) (ha : l.head? = some a) (hb : l.getLast? = some (a + n * sign))
    (hl : l.length = n + 1) : l = (List.range (n + 1)).map fun (i : Nat) => a + i * sign := by
  induction l generalizing a n with
  | nil => simp at ha
  | cons x l ih =>
    simp only [List.head?_cons, Option.some.injEq] at ha
    subst ha
    cases l with
    | nil =>
      simp only [List.length_cons, List.length_nil] at hl
      obtain rfl : n = 0 := by omega
      simp
    | cons y l =>
      obtain ⟨n, rfl⟩ : ∃ m, n = m + 1 := ⟨n - 1, by simp only [List.length_cons] at hl; omega⟩
      obtain ⟨h1, h2⟩ := List.isChain_cons_cons.mp h
      have hb' : (y :: l).getLast? = some (x + ((n + 1 : Nat) : Int) * sign) := by
        simpa [List.getLast?_cons_cons] using hb
      have hd := natAbs_last_sub_head (y :: l) y _ h2 rfl hb'
      have hl' : (y :: l).length = n + 1 := by simpa using hl
      have hy : y = x + sign := by
        rw [hl'] at hd
        push_cast at hd
        rcases hs with rfl | rfl <;> omega
      have e := ih y n h2 rfl (by rw [hb', hy]; congr 1; push_cast; ring) hl'
      rw [e, List.range_succ_eq_map (n := n + 1), List.map_cons, List.map_map, hy]
      simp only [Nat.cast_zero, zero_mul, add_zero, List.cons.injEq, true_and]
      apply List.map_congr_left
      intro i _
      simp only [Function.comp, Nat.succ_eq_add_one]
      push_cast
      ring

/-- Each value on the way of such a walk stands in it once. -/
theorem count_steady_walk (a sign : Int) (n : Nat) (hs : sign = 1 ∨ sign = -1) (x : Int) (hx : (x - a) * sign ≤ n)
    (h0 : 0 ≤ (x - a) * sign) : ((List.range (n + 1)).map fun (i : Nat) => a + i * sign).count x = 1 := by
  apply List.count_eq_one_of_mem
  · apply List.Nodup.map
    · intro i j hij
      simp only at hij
      rcases hs with rfl | rfl <;> omega
    · exact List.nodup_range
  · refine List.mem_map.mpr ⟨((x - a) * sign).toNat, List.mem_range.mpr (by omega), ?_⟩
    rw [Int.toNat_of_nonneg h0]
    rcases hs with rfl | rfl <;> ring

/-! ## Circles -/

/-- In the octant 0 ≤ a ≤ b, `b` is the whole number nearest to √(r² − a²) (R97). -/
def OnArc (r a b : Int) : Prop := b * b - b < r * r - a * a ∧ r * r - a * a ≤ b * b + b

/-- There is one such `b` for each `a`. -/
theorem OnArc.unique {r a b b' : Int} (h : OnArc r a b) (hb : 0 ≤ b) (h' : OnArc r a b') (hb' : 0 ≤ b') : b = b' := by
  obtain ⟨h1, h2⟩ := h
  obtain ⟨h3, h4⟩ := h'
  rcases lt_trichotomy b b' with k | k | k
  · nlinarith
  · exact k
  · nlinarith

/-- What the circle loop plots from (x, y) on, where (x, y) is on the arc and `f` is the midpoint's decision value: nothing
that is not an octant image of a point of the arc, and every such point right of x (R97). -/
theorem mem_circleLoop (c : Point) (r : Int) (n : Nat) (x y f : Int) (hx : 0 ≤ x) (hxy : x ≤ y) (hn : y - x ≤ n)
    (hf : f = (x + 1) * (x + 1) + y * y - y - r * r) (ha : OnArc r x y) (p : Point) :
    (p ∈ circleLoop c n f (2 * x + 1) (-2 * y) x y → ∃ a b, 0 ≤ a ∧ a ≤ b ∧ OnArc r a b ∧ p ∈ circleOctets c a b) ∧
    (∀ a b, x < a → a ≤ b → OnArc r a b → p ∈ circleOctets c a b → p ∈ circleLoop c n f (2 * x + 1) (-2 * y) x y) := by
  obtain ⟨ha1, ha2⟩ := ha
  induction n generalizing x y f with
  | zero =>
    obtain rfl : x = y := by push_cast at hn; omega
    refine ⟨fun h => by simp [circleLoop] at h, fun a b h1 h2 ⟨h3, _⟩ _ => ?_⟩
    exfalso
    nlinarith
  | succ n ih =>
    rw [circleLoop]
    by_cases hlt : x < y
    · rw [if_pos hlt]
      simp only [decide_eq_true_eq, List.mem_append]
      by_cases hd : f ≥ 0
      · simp only [hd, if_true]
        by_cases hlast : y = x + 1
        · -- the last step: the point just plotted is the mirror image of the one before
          subst hlast
          have hend : ∀ f' ddx ddy : Int, circleLoop c n f' ddx ddy (x + 1) (x + 1 - 1) = [] := by
            intro f' ddx ddy
            cases n <;> simp [circleLoop]
          rw [hend]
          constructor
          · rintro (h | h)
            · refine ⟨x, x + 1, hx, by omega, ⟨ha1, ha2⟩, ?_⟩
              simp only [circleOctets, List.mem_cons, List.not_mem_nil, or_false, add_sub_cancel_right] at h ⊢
              tauto
            · simp at h
          · intro a b h1 h2 ⟨h3, _⟩ _
            exfalso
            nlinarith
        · have h2 : x + 2 ≤ y := by omega
          have hon : OnArc r (x + 1) (y - 1) := ⟨by linarith, by linarith⟩
          have e1 : (2 * x + 1 + 2 : Int) = 2 * (x + 1) + 1 := by ring
          have e2 : (-2 * y + 2 : Int) = -2 * (y - 1) := by ring
          rw [e1, e2]
          obtain ⟨g1, g2⟩ := ih (x + 1) (y - 1) (f + -2 * (y - 1) + (2 * (x + 1) + 1)) (by omega) (by omega)
            (by push_cast at hn; omega) (by rw [hf]; ring) hon.1 hon.2
          refine ⟨fun h => ?_, fun a b h1 h2 h3 h4 => ?_⟩
          · rcases h with h | h
            · exact ⟨x + 1, y - 1, by omega, by omega, hon, h⟩
            · exact g1 h
          · by_cases h5 : a = x + 1
            · subst h5
              left
              rwa [h3.unique (by omega) hon (by omega)] at h4
            · exact .inr (g2 a b (by omega) h2 h3 h4)
      · simp only [hd, if_false]
        have hon : OnArc r (x + 1) y := ⟨by linarith, by linarith⟩
        have e1 : (2 * x + 1 + 2 : Int) = 2 * (x + 1) + 1 := by ring
        rw [e1]
        obtain ⟨g1, g2⟩ := ih (x + 1) y (f + (2 * (x + 1) + 1)) (by omega) (by omega)
          (by push_cast at hn; omega) (by rw [hf]; ring) hon.1 hon.2
        refine ⟨fun h => ?_, fun a b h1 h2 h3 h4 => ?_⟩
        · rcases h with h | h
          · exact ⟨x + 1, y, by omega, by omega, hon, h⟩
          · exact g1 h
        · by_cases h5 : a = x + 1
          · subst h5
            left
            rwa [h3.unique (by omega) hon (by omega)] at h4
          · exact .inr (g2 a b (by omega) h2 h3 h4)
    · rw [if_neg hlt]
      obtain rfl : x = y := by omega
      refine ⟨fun h => by simp at h, fun a b h1 h2 ⟨h3, _⟩ _ => ?_⟩
      exfalso
      nlinarith

/-- The octant images of a point 0 ≤ a ≤ b are the points at offsets that have these two lengths, in either order (R97). -/
theorem mem_circleOctets (c : Point) (a b u v : Int) (ha : 0 ≤ a) (hab : a ≤ b) :
    ⟨c.x + u, c.y + v⟩ ∈ circleOctets c a b ↔ min |u| |v| = a ∧ max |u| |v| = b := by
  simp only [circleOctets, List.mem_cons, List.not_mem_nil, or_false, Point.mk.injEq]
  rcases abs_cases u with ⟨e, _⟩ | ⟨e, _⟩ <;> rcases abs_cases v with ⟨f, _⟩ | ⟨f, _⟩ <;> rw [e, f] <;> omega

end Sys2Proof.Machine
end

