-- ==== Sys2Proof/Laws/Receiver.lean ====
section
/-! SUPPORT. What the receiver makes of the two frame formats. -/

namespace Sys2Proof.Machine

/-! ## Fields read back -/

/-- A field's bits give its number back (R45). -/
theorem fieldValue_append_bit (b : Bits) (x : Bool) : fieldValue (b ++ [x]) = 2 * fieldValue b + x.toNat := by
  simp [fieldValue, List.foldl_append]

theorem wireBits_succ (n v : Nat) : wireBits (n + 1) v = wireBits n (v / 2) ++ [v.testBit 0] := by
  rw [wireBits, List.range_succ, List.map_append, wireBits]
  congr 1
  · apply List.map_congr_left
    intro i hi
    rw [Nat.testBit_div_two]
    congr 1
    have := List.mem_range.mp hi
    omega
  · simp

/-- A field of width n holds the number modulo 2^n (R45). -/
theorem fieldValue_wireBits (n v : Nat) : fieldValue (wireBits n v) = v % 2 ^ n := by
  induction n generalizing v with
  | zero => simp [wireBits, fieldValue, Nat.mod_one]
  | succ n ih =>
    rw [wireBits_succ, fieldValue_append_bit, ih, Nat.pow_succ, Nat.mul_comm (2 ^ n) 2, Nat.mod_mul]
    have : (v.testBit 0).toNat = v % 2 := by
      rw [Nat.testBit_zero]
      rcases Nat.mod_two_eq_zero_or_one v with h | h <;> simp [h]
    omega

/-- A word sent as a field of its width is read back (R45). -/
theorem fieldWord_wireBits (n : Nat) (v : BitVec n) : fieldWord n (wireBits n v.toNat) = v := by
  rw [fieldWord, fieldValue_wireBits, Nat.mod_eq_of_lt v.isLt, BitVec.ofNat_toNat, BitVec.setWidth_eq]

/-! ## Command frames -/

/-- The receiver reads the opcode of a command frame and does `rxCommand` (R103, R112). -/
theorem rxFrame_cmdFrame (op : BitVec 8) (d : Device) :
    rxFrame (cmdFrame op.toNat) d = .defined (rxCommand op d) := by
  have h : ∀ op : BitVec 8, (cmdFrame op.toNat).length = 12 ∧ (cmdFrame op.toNat).take 3 = [true, false, false] ∧
      (cmdFrame op.toNat).getLastD false = false ∧
      fieldWord 8 (((cmdFrame op.toNat).drop 3).take 8) = op := by decide +kernel
  obtain ⟨h1, h2, h3, h4⟩ := h op
  simp only [rxFrame, h1, h2, h3, h4]
  rfl

/-! ## RAM-write frames -/

/-- The bits of a list of words. -/
def wordBits (words : List Row) : Bits := words.flatMap fun w => wireBits 16 w.toNat

@[simp] theorem wordBits_length (words : List Row) : (wordBits words).length = 16 * words.length := by
  induction words with
  | nil => rfl
  | cons w ws ih => simp only [wordBits, List.flatMap_cons, List.length_append, wireBits_length, List.length_cons] at *; omega

/-- Whole words are read back from a payload, whatever residual bits follow (R113). -/
theorem payloadWords_wordBits (words : List Row) (more : Bits) :
    payloadWords words.length (wordBits words ++ more) = words := by
  induction words with
  | nil => rfl
  | cons w ws ih =>
    have e : wordBits (w :: ws) ++ more = wireBits 16 w.toNat ++ (wordBits ws ++ more) := by simp [wordBits]
    have ht : (wireBits 16 w.toNat ++ (wordBits ws ++ more)).take 16 = wireBits 16 w.toNat :=
      List.take_left' (wireBits_length 16 _)
    have hd : (wireBits 16 w.toNat ++ (wordBits ws ++ more)).drop 16 = wordBits ws ++ more :=
      List.drop_left' (wireBits_length 16 _)
    rw [e, List.length_cons, payloadWords, ht, hd, fieldWord_wireBits, ih]

/-- The receiver reads a RAM-write frame's address, words and residual bits and does `rxWrite` (R103, R113). -/
theorem rxFrame_wramFrame (addr : BitVec 7) (words : List Row) (residual : Bits) (h : residual.length < 16)
    (d : Device) :
    rxFrame (wramFrame addr.toNat words residual) d = rxWrite addr words residual d := by
  have e : wramFrame addr.toNat words residual =
      [true, false, true] ++ (wireBits 7 addr.toNat ++ (wordBits words ++ residual)) := by
    simp [wramFrame, wordBits]
  have hlen : (wramFrame addr.toNat words residual).length = 10 + 16 * words.length + residual.length := by
    rw [e]; simp only [List.length_append, wireBits_length, wordBits_length, List.length_cons, List.length_nil]; omega
  have hdrop3 : (wramFrame addr.toNat words residual).drop 3 = wireBits 7 addr.toNat ++ (wordBits words ++ residual) := by
    rw [e]; rfl
  have htake3 : (wramFrame addr.toNat words residual).take 3 = [true, false, true] := by rw [e]; rfl
  have haddr : fieldWord 7 (((wramFrame addr.toNat words residual).drop 3).take 7) = addr := by
    rw [hdrop3, List.take_left' (wireBits_length 7 _), fieldWord_wireBits]
  have hpay : (wramFrame addr.toNat words residual).drop 10 = wordBits words ++ residual := by
    rw [show (10 : Nat) = 3 + 7 from rfl, ← List.drop_drop, hdrop3, List.drop_left' (wireBits_length 7 _)]
  have hplen : (wordBits words ++ residual).length / 16 = words.length := by
    rw [List.length_append, wordBits_length]; omega
  have hres : (wordBits words ++ residual).drop (16 * words.length) = residual :=
    List.drop_left' (wordBits_length words)
  simp only [rxFrame, hlen, htake3, haddr, hpay, hplen, hres, payloadWords_wordBits]
  rw [if_neg (by omega), if_neg (by omega), if_neg (by decide), if_pos trivial, if_neg (by omega)]

/-! ## The word loop of a RAM write -/

/-- Words that stay within the RAM each land at their own row, and nothing else changes (R113). -/
theorem rxWords_ok (words : List Row) (p : Nat) (d : Device) (hp : d.ptr = some p) (h : p + words.length ≤ 24) :
    ∃ ram : Vector (Known Row) 24,
      rxWords words d = .ok { d with ram := ram, ptr := some (p + words.length) } ∧
      ∀ y : Fin 24, ram[y] =
        if h : p ≤ y ∧ y < p + words.length then guarded d (words[(y : Nat) - p]'(by omega)) else d.ram[y] := by
  induction words generalizing p d with
  | nil =>
    refine ⟨d.ram, ?_, fun y => ?_⟩
    · obtain ⟨a1, a2, a3, a4, a5, a6, a7, a8⟩ := d
      simp only at hp
      simp [rxWords, hp]
    · rw [dif_neg (by simp only [List.length_nil]; omega)]
  | cons w ws ih =>
    simp only [List.length_cons] at h
    obtain ⟨ram, h1, h2⟩ := ih (p + 1)
      { d with ram := d.ram.setIfInBounds p (guarded d w), ptr := some (p + 1) } rfl (by omega)
    refine ⟨ram, ?_, fun y => ?_⟩
    · have hw : rxWord w d = .ok { d with ram := d.ram.setIfInBounds p (guarded d w), ptr := some (p + 1) } := by
        rw [rxWord, hp]
        simp only
        rw [if_neg (by omega)]
      rw [rxWords, hw]
      simp only
      rw [h1]
      simp only [List.length_cons, Except.ok.injEq, Device.mk.injEq, Option.some.injEq, true_and]
      omega
    · rw [h2 y]
      by_cases hy : (y : Nat) = p
      · rw [dif_neg (by omega), dif_pos (by simp only [List.length_cons]; omega)]
        simp [hy]
      · by_cases hr : p + 1 ≤ y ∧ (y : Nat) < p + 1 + ws.length
        · rw [dif_pos hr, dif_pos (by simp only [List.length_cons]; omega)]
          have : (y : Nat) - p = ((y : Nat) - (p + 1)) + 1 := by omega
          simp only [this, List.getElem_cons_succ]
          rfl
        · rw [dif_neg hr, dif_neg (by simp only [List.length_cons]; omega)]
          simp only [Fin.getElem_fin]
          rw [Vector.getElem_setIfInBounds_ne _ (by omega)]

/-- Words that run past row 23 are refused at the first row past it (R113). -/
theorem rxWords_overflow (words : List Row) (p : Nat) (d : Device) (hp : d.ptr = some p) (h : 24 < p + words.length)
    (hw : words ≠ []) : rxWords words d = .error (.refRxRamOverflow (max p 24)) := by
  induction words generalizing p d with
  | nil => exact absurd rfl hw
  | cons w ws ih =>
    rw [rxWords, rxWord, hp]
    simp only
    by_cases h23 : 23 < p
    · rw [if_pos h23]
      simp only [Except.error.injEq, RxRefusal.refRxRamOverflow.injEq]
      omega
    · rw [if_neg h23]
      simp only [List.length_cons] at h
      simp only
      rw [ih (p + 1) _ rfl (by omega) (by rintro rfl; simp only [List.length_nil] at h; omega)]
      simp only [Except.error.injEq, RxRefusal.refRxRamOverflow.injEq]
      omega

/-! ## Any bits are a field -/

/-- The value of a field of n bits is below 2^n (R45). -/
theorem fieldValue_lt (b : Bits) : fieldValue b < 2 ^ b.length := by
  induction b using List.reverseRecOn with
  | nil => simp [fieldValue]
  | append_singleton b x ih =>
    rw [List.length_append, List.length_singleton, fieldValue_append_bit, Nat.pow_succ]
    cases x <;> simp <;> omega

/-- The bits of a field's value are the field (R45). -/
theorem wireBits_fieldValue (b : Bits) : wireBits b.length (fieldValue b) = b := by
  induction b using List.reverseRecOn with
  | nil => rfl
  | append_singleton b x ih =>
    have h1 : (2 * fieldValue b + x.toNat) / 2 = fieldValue b := by have := Bool.toNat_lt x; omega
    have h2 : (2 * fieldValue b + x.toNat).testBit 0 = x := by cases x <;> simp [Nat.testBit_zero]
    rw [List.length_append, List.length_singleton, wireBits_succ, fieldValue_append_bit, h1, h2, ih]

/-- Only the low n bits of a number are sent (R65). -/
theorem wireBits_mod (n v : Nat) : wireBits n v = wireBits n (v % 2 ^ n) := by
  simp only [wireBits]
  apply List.map_congr_left
  intro i hi
  have := List.mem_range.mp hi
  rw [Nat.testBit_mod_two_pow, decide_eq_true (by omega), Bool.true_and]

/-- Two fields one after another are one field (R70). -/
theorem wireBits_append (n m a b : Nat) (hb : b < 2 ^ m) :
    wireBits n a ++ wireBits m b = wireBits (n + m) (a * 2 ^ m + b) := by
  induction m generalizing b with
  | zero => simp only [Nat.pow_zero, Nat.lt_one_iff] at hb; subst hb; simp [wireBits]
  | succ m ih =>
    have h1 : (a * 2 ^ (m + 1) + b) / 2 = a * 2 ^ m + b / 2 := by
      rw [Nat.pow_succ, ← Nat.mul_assoc]; omega
    have h2 : (a * 2 ^ (m + 1) + b).testBit 0 = b.testBit 0 := by
      rw [Nat.testBit_zero, Nat.testBit_zero, Nat.pow_succ, ← Nat.mul_assoc]
      congr 1
      simp only [eq_iff_iff]
      omega
    rw [wireBits_succ, ← List.append_assoc, ih (b / 2) (by rw [Nat.pow_succ] at hb; omega), ← Nat.add_assoc,
      wireBits_succ, h1, h2]

end Sys2Proof.Machine
end

