-- ==== Sys2Proof/Tests/Slice0.lean ====
section
/-! SUPPORT. Tests: the ill-formed operands, words written out from the encodings of the spec, one small step of each
instruction with its expected result from 95_test_vectors.md or from the examples of the rules, and a witness for
each statement that has hypotheses. -/

namespace Sys2Proof.Tests

open Sys2Proof Sys2Proof.Machine

set_option Elab.async false

/-! ## Small states -/

/-- A device as `surface.init()` leaves it (95_test_vectors.md P1). -/
def device : Device where
  sysEn := .known true
  ledOn := .known true
  blink := .known .off
  clockMode := .known .master
  comOption := .known 0x24
  brightness := .known 15
  ram := Vector.replicate 24 (.known 0)
  ptr := none

/-- Boot steps 2 and 3 are done, no scope is live, the shadow frame is zero. -/
def booted : State where
  wire := { levels := ⟨true, false, false, false⟩, log := [], openBits := none, rx := .defined device }
  dirs := ⟨.output, .output, .output, .output⟩
  txn := .idle
  boot := .waiting
  frame := blank
  pending := []
  readOut := none

/-- `booted` after `begin`. -/
def live : State :=
  { booted with
    wire := { levels := ⟨false, false, false, false⟩, log := [(.cs, false)], openBits := some [], rx := .defined device }
    txn := .active
    boot := .decided }

/-- `booted` with another word in row `y`. -/
def withRow (y : Fin 24) (v : Row) : State := memWrite y v booted

/-- A property of the next state; false when there is none. -/
def nextIs (p : State → Bool) (r : Result) : Bool :=
  match r with
  | .next t => p t
  | .fault _ => false
  | .refused _ => false

/-- The call faults for this reason. -/
def faultsWith (f : Fault) (r : Result) : Bool :=
  match r with
  | .next _ => false
  | .fault g => g == f
  | .refused _ => false

/-- The call is refused for this reason. -/
def refusedWith (f : Refusal) (r : Result) : Bool :=
  match r with
  | .next _ => false
  | .fault _ => false
  | .refused g => g == f

/-- The frames that a state's log holds, from the levels of `booted` on. -/
def sent (t : State) : List Bits := framesOf booted.levels t.events

/-- The device, when it is defined. -/
def deviceIs (d : Device) (t : State) : Bool := t.rx == .defined d

/-- Bits from a list of zeros and ones. -/
def bits (l : List Nat) : Bits := l.map (· == 1)

/-! ## Ill-formed operands, one for each check of WellFormed.lean -/

theorem test_wf_refuses_a_listed_opcode : (Instr.cmdUnlisted 0x24).wf = false := by decide
theorem test_wf_refuses_a_brightness_opcode : (Instr.cmdUnlisted 0xA7).wf = false := by decide
theorem test_wf_accepts_an_unlisted_opcode : (Instr.cmdUnlisted 0xB0).wf = true := by decide
theorem test_wf_refuses_a_whole_residual_word : (Instr.writeRam 0 [] (List.replicate 16 true)).wf = false := by decide
theorem test_wf_accepts_fifteen_residual_bits : (Instr.writeRam 0 [] (List.replicate 15 true)).wf = true := by decide
theorem test_wf_refuses_a_repeated_pin : (Instr.pinGroupOp [.cs, .wr, .cs] .flush).wf = false := by decide
theorem test_wf_refuses_a_repeated_pin_in_a_read : (Instr.pinGroupRead [.rd, .rd]).wf = false := by decide
theorem test_wf_refuses_a_wide_shift_value : (Instr.shiftBits 4 0x10000).wf = false := by decide
theorem test_wf_refuses_a_negative_shift_value : (Instr.shiftBits 4 (-1)).wf = false := by decide
theorem test_wf_refuses_a_wide_opcode : (Instr.cmd 0x100).wf = false := by decide
theorem test_wf_refuses_a_negative_opcode : (Instr.cmd (-1)).wf = false := by decide
theorem test_wf_refuses_a_short_frame : (Instr.replaceFrame (List.replicate 23 0)).wf = false := by decide

/-- 95_test_vectors.md Q7. -/
def badRect : RectShape := ⟨.driverFrame, ⟨5, 5⟩, ⟨4, 5⟩, ⟨.plus, .plus⟩⟩
/-- A line whose end lies above its location. -/
def badLine : LineShape := ⟨.driverFrame, ⟨0, 5⟩, ⟨3, 4⟩, ⟨.plus, .plus⟩⟩
/-- 95_test_vectors.md K7. -/
def badCircle : CircleShape := ⟨.driverFrame, ⟨0, 0⟩, -1, ⟨.plus, .plus⟩⟩
/-- 95_test_vectors.md Q1. -/
def goodRect : RectShape := ⟨.driverFrame, ⟨2, 2⟩, ⟨6, 5⟩, ⟨.plus, .plus⟩⟩

theorem test_wf_refuses_a_negative_rect : (Instr.rectDraw badRect).wf = false := by decide
theorem test_wf_refuses_a_negative_filled_rect : (Instr.rectFill badRect).wf = false := by decide
theorem test_wf_refuses_a_negative_line : (Instr.lineDraw badLine).wf = false := by decide
theorem test_wf_refuses_a_negative_circle : (Instr.circleDraw badCircle).wf = false := by decide
theorem test_wf_refuses_an_update_of_a_bad_drawable : (Instr.drawableCall (.update (.line badLine))).wf = false := by decide
theorem test_wf_refuses_an_interact_with_a_bad_peer :
    (Instr.drawableCall (.interact (.rect goodRect true) (.circle badCircle))).wf = false := by decide

/-! ## Words of the opcode map, written out from 30_encoding.md R49 and R47 -/

theorem test_decode_sysDis : decode (bits [1,0,0, 0,0,0,0,0,0,0,0, 0]) = .ok .sysDis := by decide
theorem test_decode_sysEn : decode (bits [1,0,0, 0,0,0,0,0,0,0,1, 0]) = .ok .sysEn := by decide
theorem test_decode_ledOff : decode (bits [1,0,0, 0,0,0,0,0,0,1,0, 0]) = .ok .ledOff := by decide
theorem test_decode_ledOn : decode (bits [1,0,0, 0,0,0,0,0,0,1,1, 0]) = .ok .ledOn := by decide
theorem test_decode_blinkOff : decode (bits [1,0,0, 0,0,0,0,1,0,0,0, 0]) = .ok .blinkOff := by decide
theorem test_decode_masterMode : decode (bits [1,0,0, 0,0,0,1,1,0,0,0, 0]) = .ok .masterMode := by decide
theorem test_decode_comOption : decode (bits [1,0,0, 0,0,1,0,0,1,0,0, 0]) = .ok .comOption := by decide
theorem test_decode_brightness : decode (bits [1,0,0, 1,0,1,0,1,1,0,1, 0]) = .ok (.brightnessFrame 13) := by decide
theorem test_decode_unlisted : decode (bits [1,0,0, 1,0,1,1,0,0,0,0, 0]) = .ok (.cmdUnlisted 0xB0) := by decide
theorem test_decode_writeRam :
    decode (bits ([1,0,1, 0,0,1,0,1,0,0] ++ [1,0,1,0,1,0,1,1,1,1,0,0,1,1,0,1] ++ [1,1])) =
      .ok (.writeRam 20 [0xABCD] [true, true]) := by decide
theorem test_decode_refuses_by_name :
    decode [] = .error .emptyFrame ∧ decode (bits [1,0]) = .error .truncatedId ∧
    decode (bits [1,1,0,0,0,0,0,0,0,0,0,0]) = .error .unknownId ∧
    decode (bits [1,0,0,0,0,0,0,0,0,0,1]) = .error .truncatedCommand ∧
    decode (bits [1,0,0,0,0,0,0,0,0,0,1,0,0]) = .error .overlongCommand ∧
    decode (bits [1,0,0,0,0,0,0,0,0,0,1,1]) = .error .trailingBit ∧
    decode (bits [1,0,1,0,0,0,0,0,0]) = .error .truncatedHeader := by decide

/-- The table's numbers: the 12-bit word itself, and a RAM header with its data words above bit 15 (log 6). -/
theorem test_table_words :
    decodeTableWord 16 0x848 = some .comOption ∧ decodeTableWord 16 0x95E = some (.brightnessFrame 15) ∧
    decodeTableWord 16 0x9FE = some (.cmdUnlisted 0xFF) ∧ decodeTableWord 16 0x285 = some (.writeRam 5 [] []) ∧
    decodeTableWord 32 (0xABCD * 0x10000 + 0x294) = some (.writeRam 20 [0xABCD] []) ∧
    decodeTableWord 16 0xC00 = none := by decide

/-- A table word runs as the very next step, right after reset too. -/
theorem test_step_after_reset : ∃ t, step (State.reset.withFetchWord 16 0x802) = .next t ∧ t.pending = [] :=
  ⟨_, rfl, rfl⟩

/-! ## One step of each instruction -/

theorem test_sysDis : nextIs (fun t => sent t == [bits [1,0,0,0,0,0,0,0,0,0,0,0]] &&
    deviceIs { device with sysEn := .known false, ram := Vector.replicate 24 .unknown } t) (exec .sysDis booted) = true := by
  decide +kernel
theorem test_sysEn : nextIs (deviceIs { device with sysEn := .known true })
    (exec .sysEn { booted with wire := { booted.wire with rx := .defined { device with sysEn := .known false } } }) = true := by
  decide +kernel
theorem test_ledOff : nextIs (fun t => deviceIs { device with ledOn := .known false } t && t.rx.lit 0 0 == .known false)
    (exec .ledOff booted) = true := by decide +kernel
/-- 95_test_vectors.md X13: a command to a disabled device leaves its field unknown. -/
theorem test_ledOn_disabled : nextIs (deviceIs { device with sysEn := .known false, ledOn := .unknown })
    (exec .ledOn { booted with wire := { booted.wire with rx := .defined { device with sysEn := .known false } } }) = true := by
  decide +kernel
theorem test_blinkOff : nextIs (deviceIs device)
    (exec .blinkOff { booted with wire := { booted.wire with rx := .defined { device with blink := .unknown } } }) = true := by
  decide +kernel
theorem test_masterMode : nextIs (deviceIs device)
    (exec .masterMode { booted with wire := { booted.wire with rx := .defined { device with clockMode := .known .other } } }) =
      true := by decide +kernel
theorem test_comOption : nextIs (deviceIs device)
    (exec .comOption { booted with wire := { booted.wire with rx := .defined { device with comOption := .unknown } } }) =
      true := by decide +kernel
theorem test_brightnessFrame : nextIs (deviceIs { device with brightness := .known 5 }) (exec (.brightnessFrame 5) booted) =
    true := by decide +kernel
/-- 95_test_vectors.md X11. -/
theorem test_cmdUnlisted : nextIs (deviceIs Device.init) (exec (.cmdUnlisted 0xB0) booted) = true := by decide +kernel
/-- 95_test_vectors.md X9. -/
theorem test_writeRam : nextIs (fun t => t.rx.lit 0 19 == .known false && t.rx.lit 0 20 == .known true &&
    t.rx.lit 1 23 == .known false && t.rx.lit 15 23 == .known true)
    (exec (.writeRam 20 [0xABCD, 0xABCD, 0xABCD, 0xABCD] []) booted) = true := by decide +kernel
/-- 95_test_vectors.md X10. -/
theorem test_writeRam_past_the_end : nextIs (fun t => t.rx == .refused (.refRxRamOverflow 24))
    (exec (.writeRam 20 [1, 2, 3, 4, 5] []) booted) = true := by decide +kernel

/-- R58's example. -/
theorem test_pinGroup_write : nextIs (fun t => t.events == [(.data, true), (.wr, true), (.rd, true), (.cs, true)])
    (exec (.pinGroupOp [.data, .wr, .rd, .cs] (.write true)) booted) = true := by decide
theorem test_pinGroup_direction : nextIs (fun t => t.dirs == ⟨.output, .output, .output, .input⟩ && t.events == [])
    (exec (.pinGroupOp [.rd] .setDirectionInput) booted) = true := by decide
/-- R59's corner cases: the OR of no members is 0; `cs` is high in `booted`. -/
theorem test_pinGroup_read : nextIs (fun t => t.readOut == some true) (exec (.pinGroupRead [.wr, .cs]) booted) = true ∧
    nextIs (fun t => t.readOut == some false) (exec (.pinGroupRead []) booted) = true := by decide
theorem test_begin : nextIs (fun t => t == live) (exec .beginTxn booted) = true := by decide
/-- 95_test_vectors.md T12. -/
theorem test_begin_nested : faultsWith (.nestedTransaction .beginTxn) (exec .beginTxn live) = true := by decide
/-- 95_test_vectors.md E1. -/
theorem test_shiftBits : nextIs (fun t => t.openFrame == some (bits [1,0,0,0,0,0,0,1]) && t.events.length == 25)
    (exec (.shiftBits 8 0x81) live) = true := by decide
/-- 95_test_vectors.md T8 to T11, T17. -/
theorem test_shiftBits_stops :
    faultsWith (.shiftWidthOutOfRange 17) (exec (.shiftBits 17 0) live) = true ∧
    faultsWith (.shiftWidthOutOfRange (-1)) (exec (.shiftBits (-1) 0) live) = true ∧
    faultsWith (.shiftOutsideTransaction 17 0) (exec (.shiftBits 17 0) booted) = true ∧
    refusedWith (.refShiftValueWidth 0x10000) (exec (.shiftBits 4 0x10000) booted) = true := by decide
theorem test_end : nextIs (fun t => t.txn == .idle && t.levels.cs && sent t == [[]] && deviceIs device t)
    (exec .endTxn live) = true := by decide
/-- 95_test_vectors.md T13. -/
theorem test_end_idle : faultsWith .endWithoutBegin (exec .endTxn booted) = true := by decide

/-- 95_test_vectors.md V2: 0xFF is sent as given. -/
theorem test_cmd : nextIs (fun t => sent t == [bits [1,0,0,1,1,1,1,1,1,1,1,0]] && t.events.length == 38)
    (exec (.cmd 0xFF) booted) = true := by decide +kernel
theorem test_cmd_refused : refusedWith (.refOpcodeWidth 0x100) (exec (.cmd 0x100) booted) = true := by decide
/-- 95_test_vectors.md E4. -/
theorem test_initialize : nextIs (fun t => (sent t).map List.length == [12, 12, 12, 12, 12, 394] &&
    (sent t).take 5 == [bits [1,0,0,0,0,0,0,0,0,0,1,0], bits [1,0,0,0,0,0,0,0,0,1,1,0], bits [1,0,0,0,0,0,0,1,0,0,0,0],
      bits [1,0,0,0,0,0,1,1,0,0,0,0], bits [1,0,0,0,0,1,0,0,1,0,0,0]] && t.events.length == 1374)
    (exec .initDriver booted) = true := by decide +kernel
theorem test_shutdownLeds : nextIs (fun t => sent t == [bits [1,0,0,0,0,0,0,0,0,1,0,0]]) (exec .shutdownLeds booted) =
    true := by decide +kernel
theorem test_shutdown : nextIs (fun t => sent t == [bits [1,0,0,0,0,0,0,0,0,0,0,0]]) (exec .shutdown booted) = true := by
  decide +kernel
/-- 95_test_vectors.md V2: levels 7, 16 and −1. -/
theorem test_setBrightness : nextIs (fun t => sent t == [bits [1,0,0,1,0,1,0,0,1,1,1,0]]) (exec (.setBrightness 7) booted) =
    true ∧ nextIs (fun t => t == booted) (exec (.setBrightness 16) booted) = true ∧
    nextIs (fun t => t == live) (exec (.setBrightness (-1)) live) = true := by decide +kernel
theorem test_constructDriver : nextIs (fun t => t.txn == .idle && t.wire == live.wire) (exec .constructDriver live) = true := by
  decide

/-- 95_test_vectors.md R1. -/
theorem test_clear : nextIs (fun t => t.frame == blank &&
    sent t == [bits [1,0,1,0,0,0,0,0,0,0] ++ List.replicate 384 false]) (exec .clear (withRow 3 0xFFFF)) = true := by
  decide +kernel
/-- 95_test_vectors.md R2. -/
theorem test_fill : nextIs (fun t => t.frame == allOnes &&
    sent t == [bits [1,0,1,0,0,0,0,0,0,0] ++ List.replicate 384 true]) (exec .fill booted) = true := by decide +kernel
/-- 95_test_vectors.md R4, R8. -/
theorem test_setPixel : nextIs (fun t => t == withRow 5 0x0008) (exec (.setPixel 3 5) booted) = true ∧
    nextIs (fun t => t == booted) (exec (.setPixel 16 0) booted) = true ∧
    nextIs (fun t => t == booted) (exec (.setPixel (-1) 3) booted) = true := by decide +kernel
/-- 95_test_vectors.md R9, R10. -/
theorem test_clearPixel : nextIs (fun t => t == withRow 0 0xFFFE) (exec (.clearPixel 0 0) (withRow 0 0xFFFF)) = true ∧
    nextIs (fun t => t == withRow 0 0x7FFF) (exec (.clearPixel 15 0) (withRow 0 0xFFFF)) = true := by decide +kernel
/-- 95_test_vectors.md E5. -/
theorem test_flush : nextIs (fun t => t.frame == blank && sent t == [bits [1,0,1,0,0,0,0,0,0,0] ++ List.replicate 80 false ++
    bits [0,0,0,0,0,0,0,0,0,0,0,0,1,0,0,0] ++ List.replicate 288 false] && t.rx.lit 3 5 == .known true)
    (exec .flush (withRow 5 0x0008)) = true := by decide +kernel
/-- 95_test_vectors.md R12, R13. -/
theorem test_replaceFrame :
    nextIs (fun t => memRead 0 t == 1 && memRead 23 t == 24)
      (exec (.replaceFrame ((List.range 24).map fun y => BitVec.ofNat 16 (y + 1))) booted) = true ∧
    refusedWith (.refFrameLength 25) (exec (.replaceFrame (List.replicate 25 0)) booted) = true := by decide +kernel

/-- 95_test_vectors.md S1. -/
theorem test_surfaceInit : nextIs (fun t => t.events.length == 1412 && deviceIs device t && t.frame == blank)
    (exec .surfaceInit { booted with wire := { booted.wire with rx := .defined Device.init } }) = true := by decide +kernel
/-- 95_test_vectors.md S2, S4. -/
theorem test_surfaceWrite : nextIs (fun t => t == withRow 5 0x0008) (exec (.surfaceWrite ⟨3, 5⟩ (.lit 7)) booted) = true ∧
    nextIs (fun t => t == withRow 5 0x0008) (exec (.surfaceWrite ⟨3, 5⟩ .off) (withRow 5 0x0008)) = true := by
  decide +kernel
/-- 95_test_vectors.md S7. -/
theorem test_surfaceFlush : faultsWith (.nestedTransaction .surfaceFlush) (exec .surfaceFlush live) = true ∧
    nextIs (fun t => t.frame == blank && t.rx.lit 3 5 == .known true) (exec .surfaceFlush (withRow 5 0x0008)) = true := by
  decide +kernel
/-- 95_test_vectors.md S6, inside a live scope. -/
theorem test_surfaceClear : nextIs (fun t => t == live) (exec .surfaceClear (memWrite 7 0x1234 live)) = true := by
  decide +kernel

/-- 95_test_vectors.md L1, L8. -/
theorem test_line_points : linePoints ⟨0, 0⟩ ⟨4, 2⟩ = [⟨0, 0⟩, ⟨1, 1⟩, ⟨2, 1⟩, ⟨3, 2⟩, ⟨4, 2⟩] ∧
    linePoints ⟨0, 0⟩ ⟨5, 2⟩ = [⟨0, 0⟩, ⟨1, 0⟩, ⟨2, 1⟩, ⟨3, 1⟩, ⟨4, 2⟩, ⟨5, 2⟩] := by decide +kernel
/-- 95_test_vectors.md L7: clipped at the left edge. -/
theorem test_lineDraw : nextIs (fun t => t == withRow 0 0x0007)
    (exec (.lineDraw ⟨.driverFrame, ⟨-2, 0⟩, ⟨2, 0⟩, ⟨.plus, .minus⟩⟩) booted) = true ∧
    refusedWith (.refIllFormedDrawable (.line badLine)) (exec (.lineDraw badLine) booted) = true := by decide +kernel
/-- 95_test_vectors.md Q1. -/
theorem test_rectDraw : nextIs (fun t => (List.finRange 24).map (memRead · t) ==
    [0, 0, 0x7C, 0x44, 0x44, 0x7C] ++ List.replicate 18 0) (exec (.rectDraw goodRect) booted) = true := by decide +kernel
/-- 95_test_vectors.md Q5, clipped at the corner. -/
theorem test_rectFill : nextIs (fun t => (List.finRange 24).map (memRead · t) ==
    List.replicate 20 0 ++ List.replicate 4 0xC000)
    (exec (.rectFill ⟨.driverFrame, ⟨14, 20⟩, ⟨17, 25⟩, ⟨.plus, .plus⟩⟩) booted) = true := by decide +kernel
/-- 95_test_vectors.md K4: centre (8, 8), radius 3. -/
theorem test_circleDraw : nextIs (fun t => (List.finRange 24).map (memRead · t) ==
    List.replicate 5 0 ++ [0x380, 0x440, 0x820, 0x820, 0x820, 0x440, 0x380] ++ List.replicate 12 0)
    (exec (.circleDraw ⟨.driverFrame, ⟨5, 5⟩, 3, ⟨.plus, .plus⟩⟩) booted) = true ∧
    refusedWith (.refIllFormedDrawable (.circle badCircle)) (exec (.circleDraw badCircle) booted) = true := by
  decide +kernel
theorem test_drawableCall : nextIs (fun t => t == live) (exec (.drawableCall (.update (.rect goodRect false))) live) = true ∧
    refusedWith (.refIllFormedDrawable (.circle badCircle))
      (exec (.drawableCall (.interact (.rect goodRect false) (.circle badCircle))) live) = true := by decide

/-! ## The step -/

theorem test_step_runs_a_raw_frame : nextIs (deviceIs { device with brightness := .known 7 })
    (step { booted with pending := [.frame (bits [1,0,0,1,0,1,0,0,1,1,1,0])] }) = true := by decide +kernel
/-- 95_test_vectors.md X6: a frame that is no row of the table reaches the receiver, which refuses it. -/
theorem test_step_sends_an_undecodable_frame :
    nextIs (fun t => t.rx == .refused (.refRxTrailingBit (bits [1,0,0,0,0,0,0,0,0,0,1,1])))
      (step { booted with pending := [.frame (bits [1,0,0,0,0,0,0,0,0,0,1,1])] }) = true := by decide +kernel
/-- R133: a transaction that begins with `cs` low leaves the receiver undefined and the driver as it is. -/
theorem test_boot_requirement : nextIs (fun t => t.rx == .unbooted && t.txn == .active && t.events == [(.cs, false)])
    (exec .beginTxn { booted with wire := { booted.wire with levels := ⟨false, false, false, false⟩ } }) = true := by decide

/-- R133, D10: the requirement is asked of the first transaction alone; `rd` turned to input later changes nothing. -/
theorem test_boot_requirement_is_asked_once : nextIs (deviceIs { device with ledOn := .known false })
    (exec .ledOff { booted with dirs := ⟨.output, .output, .output, .input⟩, boot := .decided }) = true := by decide +kernel
/-- R133: a frame built by pin writes with pins left inputs leaves the receiver undefined at its first bit. -/
theorem test_pin_writes_without_boot :
    nextIs (fun t => t.boot == .opening false && t.rx == .defined device)
      (exec (.pinGroupOp [.cs] (.write false)) { booted with dirs := ⟨.output, .input, .output, .output⟩ }) = true ∧
    nextIs (fun t => t.rx == .unbooted && t.boot == .decided) (exec (.pinGroupOp [.wr] (.write true))
      { booted with
        wire := { booted.wire with levels := ⟨false, false, true, false⟩, openBits := some [] }
        boot := .opening false }) = true := by decide
/-- An empty frame is pin setup: the boot sequence can still be made after it. -/
theorem test_pin_setup_pulse : nextIs (fun t => t.boot == .waiting && t.rx == .defined device && t.levels.cs)
    (andThen (exec (.pinGroupOp [.cs] (.write false)) booted) (exec (.pinGroupOp [.cs] (.write true)))) = true := by decide

/-! ## Witnesses: a concrete state and operands that meet the hypotheses of each statement, clause by clause -/

/-- `live` with no open frame: the scope is live but the host never lowered `cs`. -/
def liveNoFrame : State :=
  { live with wire := { live.wire with levels := ⟨true, true, false, false⟩, openBits := none } }

/-- `booted` with `cs` low: boot step 3 was skipped. -/
def unbootedState : State := { booted with wire := { booted.wire with levels := ⟨false, false, false, false⟩ } }

/-- A frame opened by pin writes before the boot requirement was met. -/
def openedByHand : State :=
  { booted with
    wire := { booted.wire with levels := ⟨false, false, true, false⟩, openBits := some [] }
    boot := .opening false }

/-- `booted` with a receiver that refused a frame. -/
def refusedState : State := { booted with wire := { booted.wire with rx := .refused (.refRxUnknownId (bits [1,1,0])) } }

/-- `booted` with an untouched device. -/
def freshDevice : State := { booted with wire := { booted.wire with rx := .defined Device.init } }

theorem witness_DecodeOfEncodeIsTheInstruction :
    (Instr.writeRam 127 [0xABCD] (List.replicate 15 true)).wf = true ∧
    (encode (.writeRam 127 [0xABCD] (List.replicate 15 true))).isSome = true ∧
    (Instr.cmdUnlisted 0xFF).wf = true ∧ encode (.cmdUnlisted 0xFF) = some (bits [1,0,0,1,1,1,1,1,1,1,1,0]) := by decide
theorem witness_DecodedFrameEncodesBack :
    decode (bits [1,0,1,1,1,1,1,1,1,1]) = .ok (.writeRam 127 [] []) := by decide
theorem witness_StepRunsTheNextCall :
    decode (bits [1,0,0,0,0,0,0,0,0,0,1,0]) = .ok .sysEn ∧ decode (bits [1,0]) = .error .truncatedId ∧
    booted.txn = .idle ∧ live.txn = .active ∧ booted.pending = [] ∧
    ({ booted with pending := [.call .flush] } : State).pending = .call .flush :: [] ∧
    decodeTableWord 16 0x802 = some .sysEn := by decide
theorem witness_RowWriteChangesOneRow : (0 : Fin 24) ≠ 23 := by decide
theorem witness_PinGroupWriteDrivesItsMembers : Pin.cs ∉ [Pin.data, .wr, .rd] := by decide
theorem witness_BeginOpensTheScope : booted.txn = .idle ∧ booted.levels.cs = true ∧ live.txn = .active := by decide
theorem witness_ScopeAtTheReceiver :
    booted.txn = .idle ∧ (booted.levels.cs = true ∧ (booted.dirs.cs = .output ∧ booted.dirs.wr = .output ∧
      booted.dirs.data = .output ∧ booted.dirs.rd = .output)) ∧ nextIs (fun _ => true) (exec .beginTxn booted) = true ∧
    unbootedState.txn = .idle ∧ unbootedState.boot ≠ .decided ∧ unbootedState.levels.cs = false ∧
    unbootedState.rx = .defined device ∧ nextIs (fun _ => true) (exec .beginTxn unbootedState) = true ∧
    booted.boot = .waiting ∧ nextIs (fun _ => true) (exec (.pinGroupOp [.cs] (.write false)) booted) = true ∧
    openedByHand.boot = .opening false ∧ openedByHand.levels.wr = false ∧ openedByHand.levels.cs = false ∧
    openedByHand.openFrame ≠ none ∧ nextIs (fun _ => true) (exec (.pinGroupOp [.wr] (.write true)) openedByHand) = true ∧
    live.txn = .active ∧ live.openFrame = some [] ∧ liveNoFrame.openFrame = none ∧
    nextIs (fun _ => true) (exec .endTxn live) = true ∧ nextIs (fun _ => true) (exec .endTxn liveNoFrame) = true := by
  decide +kernel
theorem witness_EndClosesTheScope :
    live.txn = .active ∧ live.openFrame = some [] ∧ liveNoFrame.txn = .active ∧ liveNoFrame.openFrame = none ∧
    booted.txn = .idle ∧ (wireView booted.levels booted.events).levels.cs = true := by decide
theorem witness_ShiftBitsSendsTheLowBitsMsbFirst :
    live.txn = .active ∧ (0 : Nat) ≤ 16 ∧ (16 : Nat) ≤ 16 ∧ (65535 : Nat) < 65536 ∧ live.levels.cs = false ∧
    live.openFrame = some [] := by decide
theorem witness_ShiftBitsStopsInThisOrder :
    ¬ (0 ≤ (-1 : Int) ∧ (-1 : Int) < 65536) ∧ ¬ (0 ≤ (65536 : Int) ∧ (65536 : Int) < 65536) ∧
    (0 : Int) ≤ 65535 ∧ (65535 : Int) < 65536 ∧ booted.txn = .idle ∧ live.txn = .active ∧
    ((-1 : Int) < 0 ∨ 16 < (-1 : Int)) ∧ ((17 : Int) < 0 ∨ 16 < (17 : Int)) := by decide
theorem witness_ZeroLengthShiftChangesNothing : live.txn = .active ∧ (0 : Int) ≤ 65535 ∧ (65535 : Int) < 65536 := by
  decide
theorem witness_SuccessiveShiftsConcatenate :
    live.txn = .active ∧ 9 + 7 ≤ 16 ∧ 511 < 2 ^ 9 ∧ 127 < 2 ^ 7 := by decide
theorem witness_LogReadsBackEverySentFrame : (wireView booted.levels [(.cs, false), (.cs, true)]).levels.cs = true := by
  decide
theorem witness_CmdSendsOneCommandFrame :
    0 < 256 ∧ 255 < 256 ∧ booted.txn = .idle ∧ live.txn = .active ∧ ((-1 : Int) < 0 ∨ 255 < (-1 : Int)) ∧
    ((256 : Int) < 0 ∨ 255 < (256 : Int)) := by decide
theorem witness_EachWireFrameIsSentAsItsBits : booted.txn = .idle := by decide
theorem witness_InitializationSendsItsFrames : booted.txn = .idle ∧ live.txn = .active := by decide
theorem witness_ShutdownCallsSendTheirCommand : booted.txn = .idle ∧ live.txn = .active := by decide
theorem witness_SetBrightnessSendsOnlyLevelsInRange :
    booted.txn = .idle ∧ (0 : Int) ≤ 0 ∧ (0 : Int) ≤ 15 ∧ (15 : Int) ≤ 15 ∧ ((-1 : Int) < 0 ∨ 15 < (-1 : Int)) ∧
    ((16 : Int) < 0 ∨ 15 < (16 : Int)) := by decide
theorem witness_ClearAndFillSendAndSetEveryRow : booted.txn = .idle ∧ live.txn = .active := by decide
theorem witness_FlushSendsTheFrameAndZeroesIt : booted.txn = .idle ∧ live.txn = .active := by decide
theorem witness_SetPixelLightsOnePixel :
    ¬ (0 ≤ (16 : Int) ∧ (16 : Int) < 16 ∧ 0 ≤ (23 : Int) ∧ (23 : Int) < 24) ∧
    ¬ (0 ≤ (15 : Int) ∧ (15 : Int) < 16 ∧ 0 ≤ (24 : Int) ∧ (24 : Int) < 24) ∧
    ¬ (0 ≤ (-1 : Int) ∧ (-1 : Int) < 16 ∧ 0 ≤ (0 : Int) ∧ (0 : Int) < 24) := by decide
theorem witness_ClearPixelDarkensOnePixel :
    ¬ (0 ≤ (16 : Int) ∧ (16 : Int) < 16 ∧ 0 ≤ (23 : Int) ∧ (23 : Int) < 24) ∧
    ¬ (0 ≤ (0 : Int) ∧ (0 : Int) < 16 ∧ 0 ≤ (-1 : Int) ∧ (-1 : Int) < 24) := by decide
theorem witness_ReplaceFrameTakesExactly24Words :
    (List.replicate 24 (0 : Row)).length = 24 ∧ (List.replicate 23 (0 : Row)).length ≠ 24 ∧
    (List.replicate 25 (0 : Row)).length ≠ 24 := by decide
theorem witness_SurfaceWriteSetsUnlessOff : Color.lit 0 ≠ .off ∧ Color.off = .off := by decide
theorem witness_DrawablesSetExactlyTheirOnPanelPoints :
    (⟨.driverFrame, ⟨-2, 0⟩, ⟨-2, 0⟩, ⟨.plus, .minus⟩⟩ : LineShape).wf = true ∧ goodRect.wf = true ∧
    (⟨.driverFrame, ⟨20, 30⟩, 0, ⟨.plus, .plus⟩⟩ : CircleShape).wf = true := by decide
theorem witness_StraightLinesAreExact :
    ((1 : Int) = 1 ∨ (1 : Int) = -1) ∧ ((-1 : Int) = 1 ∨ (-1 : Int) = -1) := by decide
theorem witness_UnfilledRectangleDrawsItsBoundary :
    goodRect.location.x ≤ goodRect.endPt.x ∧ goodRect.location.y ≤ goodRect.endPt.y := by decide
theorem witness_FilledRectangleDrawsItsInside :
    (⟨.driverFrame, ⟨3, 3⟩, ⟨3, 3⟩, ⟨.plus, .plus⟩⟩ : RectShape).location.x ≤ (⟨.driverFrame, ⟨3, 3⟩, ⟨3, 3⟩, ⟨.plus, .plus⟩⟩ : RectShape).endPt.x ∧
    goodRect.location.y ≤ goodRect.endPt.y := by decide
theorem witness_LinesObeyTheLineLaws :
    ((2 : Int) - 0).natAbs ≤ ((4 : Int) - 0).natAbs ∧ min (0 : Int) 4 ≤ 4 ∧ (4 : Int) ≤ max 0 4 ∧
    ((0 : Int) - 0).natAbs ≤ ((3 : Int) - 0).natAbs ∧ min (0 : Int) 3 ≤ 0 ∧ (0 : Int) ≤ max 0 3 := by decide
theorem witness_CircleOutlineIsSymmetric :
    (0 : Int) ≤ 0 ∧ (0 : Int) ≤ 2 ∧ (0 : Int) < 2 ∧ (⟨5 + 1, 5 + 2⟩ : Point) ∈ circlePoints ⟨5, 5⟩ 2 ∧
    (2 : Int) = max |1| |2| ∧ (1 : Int) = min |1| |2| ∧ |(-2 : Int)| ≤ 2 := by decide +kernel
theorem witness_DrawingOrderIsInvisible :
    (∃ a, Instr.rectFill goodRect = .lineDraw a ∨ (∃ b, Instr.rectFill goodRect = .rectDraw b) ∨
      (∃ b, Instr.rectFill goodRect = .rectFill b) ∨ ∃ b, Instr.rectFill goodRect = .circleDraw b) ∧
    ¬ OperandRefused (.rectFill goodRect) ∧ ¬ OperandRefused (.circleDraw ⟨.driverFrame, ⟨0, 0⟩, 0, ⟨.plus, .plus⟩⟩) := by
  refine ⟨⟨⟨.driverFrame, ⟨0, 0⟩, ⟨0, 0⟩, ⟨.plus, .plus⟩⟩, .inr (.inr (.inl ⟨goodRect, rfl⟩))⟩, ?_, ?_⟩ <;>
    simp [OperandRefused, goodRect]
theorem witness_UpdateAndInteractDoNothing :
    (DrawableCall.interact (.rect goodRect true) (.circle ⟨.driverFrame, ⟨0, 0⟩, 0, ⟨.plus, .plus⟩⟩)).wf = true := by decide
theorem witness_NamedCommandsWriteTheirField :
    booted.txn = .idle ∧ booted.levels.cs = true ∧ bootHolds booted = true ∧ booted.rx = .defined device ∧ device.sysEn = .known true ∧
    bootHolds freshDevice = true ∧ freshDevice.rx = .defined Device.init ∧ Device.init.sysEn ≠ .known true := by decide +kernel
theorem witness_UnlistedOpcodeMakesEverythingUnknown :
    booted.txn = .idle ∧ booted.levels.cs = true ∧ bootHolds booted = true ∧ booted.rx = .defined device ∧
    (0xB0 : BitVec 8).toNat ∉ [0x00, 0x01, 0x02, 0x03, 0x08, 0x18, 0x24] ∧
    ¬ (0xA0 ≤ (0xB0 : BitVec 8).toNat ∧ (0xB0 : BitVec 8).toNat ≤ 0xAF) ∧
    Instr.cmd (0xB0 : BitVec 8).toNat ∈ [Instr.cmdUnlisted 0xB0, Instr.cmd (0xB0 : BitVec 8).toNat] := by decide +kernel
theorem witness_RamWriteStoresItsWords :
    booted.txn = .idle ∧ booted.levels.cs = true ∧ bootHolds booted = true ∧ booted.rx = .defined device ∧ (List.replicate 15 true).length < 16 ∧
    (([1, 2, 3, 4] : List Row) = [] ∨ (20 : BitVec 7).toNat + ([1, 2, 3, 4] : List Row).length ≤ 24) ∧
    (([] : List Row) = [] ∨ (127 : BitVec 7).toNat + ([] : List Row).length ≤ 24) := by decide +kernel
theorem witness_RamWritePastRow23IsRefusedByTheReceiver :
    booted.txn = .idle ∧ booted.levels.cs = true ∧ bootHolds booted = true ∧ booted.rx = .defined device ∧ ([] : Bits).length < 16 ∧
    ([1] : List Row) ≠ [] ∧ 24 < (24 : BitVec 7).toNat + ([1] : List Row).length ∧
    24 < (0 : BitVec 7).toNat + (List.replicate 25 (1 : Row)).length := by decide +kernel
theorem witness_MalformedFramesAtTheReceiver :
    0 < (bits [1]).length ∧ (bits [1,0]).length < 3 ∧ (List.replicate 8 false).length < 9 ∧
    9 < (List.replicate 10 false).length ∧ (List.replicate 8 false).length = 8 ∧ (List.replicate 6 false).length < 7 ∧
    bits [1,1,0] ≠ [true, false, false] ∧ bits [1,1,0] ≠ [true, false, true] := by decide
theorem witness_FlushShowsTheShadowFrame :
    booted.txn = .idle ∧ booted.levels.cs = true ∧ bootHolds booted = true ∧ booted.rx = .defined device ∧ device.sysEn = .known true ∧
    device.ledOn = .known true ∧ device.blink = .known .off ∧ device.clockMode = .known .master ∧
    device.comOption = .known 0x24 := by decide +kernel
theorem witness_PanelIsDarkAfterShutdown :
    booted.txn = .idle ∧ booted.levels.cs = true ∧ bootHolds booted = true ∧ booted.rx = .defined device ∧ device.sysEn = .known true := by
  decide +kernel
theorem witness_BootSequenceLeavesTheInitialImage :
    freshDevice.rx = .defined Device.init ∧ freshDevice.openFrame = none ∧ unbootedState.openFrame = none := by decide +kernel
theorem witness_EveryOtherCallCompletes :
    ¬ OperandRefused (.cmd 255) ∧ (EmitsFrame (.cmd 255) ∨ Instr.cmd 255 = .beginTxn → booted.txn = .idle) ∧
    ¬ OperandRefused .endTxn ∧ (Instr.endTxn = .endTxn → live.txn = .active) ∧
    ¬ OperandRefused (.shiftBits 16 65535) ∧ live.txn = .active ∧ (0 : Int) ≤ 16 ∧ (16 : Int) ≤ 16 := by
  simp [OperandRefused, booted, live]
theorem witness_StepKeepsLogTellingTheWire :
    LogTells State.reset.levels (State.reset.withFetchWord 16 0x802) ∧
    ∃ t, step (State.reset.withFetchWord 16 0x802) = .next t := ⟨⟨rfl, rfl, fun _ => rfl⟩, _, rfl⟩
theorem witness_StepKeepsReceiverAtRest :
    PointerIdle { freshDevice with pending := [.call .flush] } ∧
    OpenMeansLow { freshDevice with pending := [.call .flush] } ∧
    BootTells { freshDevice with pending := [.call .flush] } ∧
    nextIs (fun _ => true) (step { freshDevice with pending := [.call .flush] }) = true := by
  refine ⟨fun d h => ?_, fun h => ?_, fun _ => ⟨rfl, rfl, rfl⟩, by decide +kernel⟩
  · cases h; rfl
  · cases h
theorem witness_EventLogOnlyGrows :
    nextIs (fun t => t.events.length == 1) (step { booted with pending := [.call .beginTxn] }) = true := by decide
theorem witness_UndefinedReceiverStaysUndefined :
    (∀ d, refusedState.rx ≠ .defined d) ∧
    nextIs (fun t => t.rx == refusedState.rx) (step { refusedState with pending := [.call .sysEn] }) = true :=
  ⟨(fun d h => nomatch h), by decide +kernel⟩
theorem witness_DriverNeverReadsTheReceiver :
    nextIs (fun _ => true) (exec .sysEn refusedState) = true ∧ faultsWith .endWithoutBegin (exec .endTxn booted) = true ∧
    refusedWith (.refOpcodeWidth 256) (exec (.cmd 256) booted) = true := by decide +kernel
theorem witness_OnlyPinGroupsTouchDirectionsAndRd :
    (∀ members op, Instr.flush ≠ .pinGroupOp members op) ∧ nextIs (fun _ => true) (exec .flush booted) = true :=
  ⟨(fun _ _ h => nomatch h), by decide +kernel⟩
theorem witness_OnlyBeginEndAndConstructionMoveTheScope :
    Instr.flush ≠ .beginTxn ∧ Instr.flush ≠ .endTxn ∧ Instr.flush ≠ .constructDriver ∧
    nextIs (fun t => t.txn == .idle) (exec .flush booted) = true ∧
    nextIs (fun t => t.txn == .active) (exec (.shiftBits 3 5) live) = true := by decide +kernel
theorem witness_LiveScopeHoldsCsLow :
    (∀ members b, Instr.beginTxn ≠ .pinGroupOp members (.write b)) ∧
    (booted.txn = .active → booted.levels.cs = false) ∧
    nextIs (fun t => t.txn == .active && !t.levels.cs) (exec .beginTxn booted) = true :=
  ⟨(fun _ _ h => nomatch h), (fun h => nomatch h), by decide +kernel⟩
theorem witness_ShadowOnlyCallsEmitNothing :
    ShadowOnly .surfaceClear ∧ nextIs (fun _ => true) (exec .surfaceClear live) = true := ⟨trivial, by decide +kernel⟩

end Sys2Proof.Tests
end

section
/-! PROOFS. The call queue (00_scope.md R11, 10_state.md R21, 45_wire_frames.md R103; log 4): what a step does with the
next call on the list, and what running a raw frame is. -/

namespace Sys2Proof.Machine

/-! ## The next call -/

theorem step_of_pending_nil {s : State} (h : s.pending = []) : step s = .next s := by
  simp only [step, fetch, h]

theorem step_of_pending_cons {s : State} {c : HostCall} {rest : List HostCall} (h : s.pending = c :: rest) :
    step s = runCall c { s with pending := rest } := by
  simp only [step, fetch, h]

/-- A step on a pushed frame runs that frame from the state it was pushed onto. -/
theorem step_pushFrame (bits : Bits) (s : State) : step (pushFrame bits s) = runFrame bits s :=
  step_of_pending_cons (s := pushFrame bits s) rfl

/-! ## A raw frame -/

theorem runFrame_of_decode_ok {bits : Bits} {i : Instr} (h : decode bits = .ok i) (s : State) :
    runFrame bits s = exec i s := by
  simp only [runFrame, h]

theorem runFrame_of_decode_error {bits : Bits} {e : DecodeError} (h : decode bits = .error e) (s : State) :
    runFrame bits s = sendFrame .beginTxn bits s := by
  simp only [runFrame, h, rawFrame]

/-! ## A table word -/

/-- A table word is read as an instruction exactly when its frame decodes to it (log 6). -/
theorem decodeTableWord_eq_some_iff {nbits w : Nat} {i : Instr} :
    decodeTableWord nbits w = some i ↔ decode (tableFrame nbits w) = .ok i := by
  unfold decodeTableWord
  cases decode (tableFrame nbits w) <;> simp

/-- Settles O5: each clause is the next call taken off the list, then the raw frame's own case; an undecodable frame is
`sendFrame` from an idle or a live scope. -/
theorem stepRunsTheNextCall : Obligations.StepRunsTheNextCall := by
  refine ⟨fun s bits rest i hp hd => ?decodable, fun s bits rest e hp hd => ?undecodable, fun s i rest hp => ?call,
    fun s hp => ?noCall, fun s nbits w i hw => ?tableWord⟩
  case decodable => exact (step_of_pending_cons hp).trans (runFrame_of_decode_ok hd _)
  case undecodable =>
    have hs : step s = sendFrame .beginTxn bits { s with pending := rest } :=
      (step_of_pending_cons hp).trans (runFrame_of_decode_error hd _)
    exact ⟨fun idle => hs.trans (sendFrame_idle _ _ _ idle), fun active => hs.trans (sendFrame_active _ _ _ active)⟩
  case call => exact step_of_pending_cons hp
  case noCall => exact step_of_pending_nil hp
  case tableWord =>
    exact (step_pushFrame _ s).trans (runFrame_of_decode_ok (decodeTableWord_eq_some_iff.mp hw) s)

end Sys2Proof.Machine
end

section
/-! PROOFS. The receiver and the event log (10_state.md R16, R24; 30_encoding.md R43, R44; 45_wire_frames.md R103): the
wire's log tells its levels, its open frame and its receiver, and it only grows. -/

namespace Sys2Proof.Machine

/-! ## Reading one more event -/

theorem wireView_append (l : PinLevels) (events : List Event) (e : Event) :
    wireView l (events ++ [e]) = (wireView l events).next e := by
  simp only [wireView, List.foldl_append, List.foldl_cons, List.foldl_nil]

theorem framesOf_append (l : PinLevels) (events : List Event) (e : Event) :
    framesOf l (events ++ [e]) = framesOf l events ++ (closedBy (wireView l events).openBits e).toList := by
  rw [framesOf, wireView_append]
  rfl

/-- The receiver after an event is the receiver after the frames, one or none, that the event closes (R103). -/
theorem rxAfter_eq_foldl (openBits : Option Bits) (e : Event) (r : Receiver) :
    rxAfter openBits e r = (closedBy openBits e).toList.foldl (fun r bits => r.receive bits) r := by
  unfold rxAfter
  cases closedBy openBits e <;> rfl

theorem rxAfter_unbooted (openBits : Option Bits) (e : Event) : rxAfter openBits e .unbooted = .unbooted := by
  unfold rxAfter
  cases closedBy openBits e <;> rfl

/-- An unmet boot requirement leaves alone the receiver that a frame's refusal made undefined before (R133; log 14). -/
theorem unboot_eq_self_of_ne_unbooted {r : Receiver} (h : r.unboot ≠ .unbooted) : r.unboot = r := by
  cases r with
  | defined d => exact absurd rfl h
  | refused why => rfl
  | unbooted => rfl

/-! ## The log tells the wire -/

/-- `LogTells`, of the wire alone. -/
def WireTells (l : PinLevels) (w : Wire) : Prop :=
  (wireView l w.log.reverse).levels = w.levels ∧
  (wireView l w.log.reverse).openBits = w.openBits ∧
  (w.rx ≠ .unbooted →
    w.rx = (framesOf l w.log.reverse).foldl (fun r bits => r.receive bits) (.defined Device.init))

theorem logTells_iff (l : PinLevels) (s : State) : LogTells l s ↔ WireTells l s.wire := Iff.rfl

theorem WireTells.write {l : PinLevels} {w : Wire} (h : WireTells l w) (p : Pin) (v : Level) :
    WireTells l (w.write p v) := by
  obtain ⟨hlevels, hopen, hrx⟩ := h
  simp only [WireTells, write_levels, write_log, write_openBits, write_rx, List.reverse_cons, wireView_append,
    framesOf_append, WireView.next, hlevels, hopen, true_and]
  intro hne
  have hbooted : w.rx ≠ .unbooted := fun e => hne (by rw [e, rxAfter_unbooted])
  rw [rxAfter_eq_foldl, List.foldl_append, ← hrx hbooted]

theorem WireTells.unboot {l : PinLevels} {w : Wire} (h : WireTells l w) :
    WireTells l { w with rx := w.rx.unboot } := by
  obtain ⟨hlevels, hopen, hrx⟩ := h
  refine ⟨hlevels, hopen, fun hne => ?_⟩
  have hself : w.rx.unboot = w.rx := unboot_eq_self_of_ne_unbooted hne
  exact hself.trans (hrx (hself ▸ hne))

theorem wireClosed_wireTells (l : PinLevels) : WireClosed (WireTells l) where
  write _ p v h := h.write p v
  unboot _ h := h.unboot

/-- Settles O52: `LogTells` speaks of the wire alone, and a pin write and an unmet boot requirement both keep it. -/
theorem stepKeepsLogTellingTheWire : Obligations.StepKeepsLogTellingTheWire :=
  fun l s t h hstep => (logTells_iff l t).mpr ((wireClosed_wireTells l).step hstep ((logTells_iff l s).mp h))

/-! ## The log only grows -/

/-- The log stands newest first, so a log that grew ends with the old one. -/
theorem wireClosed_log_suffix (log : List Event) : WireClosed (fun w => log <:+ w.log) where
  write _ _ _ h := h.trans (List.suffix_cons _ _)
  unboot _ h := h

/-- Settles O54: the old log is a suffix of the new one, both newest first. -/
theorem eventLogOnlyGrows : Obligations.EventLogOnlyGrows := by
  intro s t hstep
  obtain ⟨newer, h⟩ := (wireClosed_log_suffix s.wire.log).step hstep List.suffix_rfl
  exact ⟨newer.reverse, by rw [State.events, ← h, List.reverse_append]; rfl⟩

end Sys2Proof.Machine
end

section
/-! PROOFS. The receiver at rest (10_state.md R24; 30_encoding.md R43; 45_wire_frames.md R113; 70_reset_and_hazards.md R132,
R133): the write pointer between frames, the open frame and `cs`, and what holds before the run's first transaction. -/

namespace Sys2Proof.Machine

/-! ## The write pointer between frames -/

/-- A receiver that is in no RAM write (R24). -/
def Receiver.AtRest (r : Receiver) : Prop := ∀ d, r = .defined d → d.ptr = none

@[simp] theorem atRest_defined (d : Device) : (Receiver.defined d).AtRest ↔ d.ptr = none := by
  simp [Receiver.AtRest]

@[simp] theorem atRest_refused (why : RxRefusal) : (Receiver.refused why).AtRest := fun _ h => nomatch h

@[simp] theorem atRest_unbooted : Receiver.unbooted.AtRest := fun _ h => nomatch h

theorem pointerIdle_iff (s : State) : PointerIdle s ↔ s.wire.rx.AtRest := Iff.rfl

@[simp] theorem havocControl_ptr (d : Device) : (havocControl d).ptr = d.ptr := rfl
@[simp] theorem havocRam_ptr (d : Device) : (havocRam d).ptr = d.ptr := rfl
@[simp] theorem havocAll_ptr (d : Device) : (havocAll d).ptr = d.ptr := rfl

/-- No command moves the write pointer (R112). -/
@[simp] theorem rxCommand_ptr (op : BitVec 8) (d : Device) : (rxCommand op d).ptr = d.ptr := by
  unfold rxCommand
  split_ifs <;> rfl

/-- A RAM write takes its pointer away at the end, if it is not refused (R113). -/
theorem rxWrite_atRest (addr : BitVec 7) (words : List Row) (residual : Bits) (d : Device) :
    (rxWrite addr words residual d).AtRest := by
  unfold rxWrite
  split <;> simp

/-- A RAM write takes its pointer away, and no other frame sets one (R103). -/
theorem rxFrame_atRest (bits : Bits) {d : Device} (h : d.ptr = none) : (rxFrame bits d).AtRest := by
  simp only [rxFrame]
  split_ifs <;> simp only [atRest_defined, atRest_refused, havocAll_ptr, havocControl_ptr, havocRam_ptr, rxCommand_ptr,
    h, rxWrite_atRest]

theorem Receiver.AtRest.receive {r : Receiver} (h : r.AtRest) (bits : Bits) : (r.receive bits).AtRest := by
  cases r with
  | defined d => exact rxFrame_atRest bits (h d rfl)
  | refused why => exact atRest_refused why
  | unbooted => exact atRest_unbooted

theorem Receiver.AtRest.rxAfter {r : Receiver} (h : r.AtRest) (openBits : Option Bits) (e : Event) :
    (rxAfter openBits e r).AtRest := by
  unfold Machine.rxAfter
  split
  · exact h.receive _
  · exact h

theorem Receiver.AtRest.unboot {r : Receiver} (h : r.AtRest) : r.unboot.AtRest := by
  cases r with
  | defined d => exact atRest_unbooted
  | refused why => exact h
  | unbooted => exact h

theorem wireClosed_atRest : WireClosed (fun w => w.rx.AtRest) where
  write _ p v h := h.rxAfter _ (p, v)
  unboot _ h := h.unboot

/-! ## The open frame and `cs` -/

/-- An event after which a frame is open leaves `cs` low (R43). -/
theorem cs_low_of_nextOpen {l : PinLevels} {openBits : Option Bits} (h : openBits.isSome = true → l.cs = false)
    (p : Pin) (v : Level) (ho : (nextOpen l openBits (p, v)).isSome = true) : (l.set p v).cs = false := by
  cases p with
  | cs => cases v <;> simp [nextOpen, PinLevels.set] at ho ⊢
  | wr =>
    refine h ?_
    cases v with
    | false => exact ho
    | true =>
      rw [nextOpen] at ho
      split at ho
      · simpa using ho
      · exact ho
  | data => exact h ho
  | rd => exact h ho

theorem wireClosed_openMeansLow : WireClosed (fun w => w.openBits.isSome = true → w.levels.cs = false) where
  write _ p v h := cs_low_of_nextOpen h p v
  unboot _ h := h

/-! ## Before the first transaction -/

theorem bootTells_of_decided {s : State} (h : s.boot = .decided) : BootTells s := fun hne => absurd h hne

/-- A scope is live only once the first transaction has begun (R133). -/
theorem BootTells.decided_of_active {s : State} (h : BootTells s) (active : s.txn = .active) : s.boot = .decided := by
  by_contra hne
  obtain ⟨idle, -, -⟩ := h hne
  rw [active] at idle
  cases idle

/-- With no frame open, only `(cs, 0)` opens one (R43, R44). -/
theorem nextOpen_none (l : PinLevels) {e : Event} (h : e ≠ (.cs, false)) : nextOpen l none e = none := by
  obtain ⟨p, v⟩ := e
  cases p <;> cases v <;> simp_all [nextOpen]

theorem closedBy_none (e : Event) : closedBy none e = none := by
  obtain ⟨p, v⟩ := e
  cases p <;> cases v <;> rfl

/-- An open empty frame stays so at an event that neither closes it nor latches a bit (R43, R44). -/
theorem nextOpen_empty {l : PinLevels} {e : Event} (hclose : e ≠ (.cs, true))
    (hlatch : latches l (some []) e = false) : nextOpen l (some []) e = some [] := by
  obtain ⟨p, v⟩ := e
  cases p <;> cases v <;> simp_all [nextOpen, latches]

theorem closedBy_eq_none (openBits : Option Bits) {e : Event} (h : e ≠ (.cs, true)) : closedBy openBits e = none := by
  obtain ⟨p, v⟩ := e
  cases p <;> cases v <;> simp_all [closedBy]

/-- An event that closes no frame leaves the receiver alone (R103). -/
theorem rxAfter_of_closedBy_none {openBits : Option Bits} {e : Event} (h : closedBy openBits e = none) (r : Receiver) :
    rxAfter openBits e r = r := by
  simp only [rxAfter, h]

/-- A pin write of the host's own, before and after the first transaction (R133; log 7). -/
theorem BootTells.pinWrite_watchBoot {s : State} (h : BootTells s) (p : Pin) (v : Level) :
    BootTells (pinWrite p v (watchBoot (p, v) s)) := by
  cases hb : s.boot with
  | decided => exact bootTells_of_decided (by rw [pinWrite_boot, watchBoot_decided _ _ hb, hb])
  | waiting =>
    obtain ⟨idle, hrx, hopen⟩ := h (by simp [hb])
    rw [if_pos hb] at hopen
    have hkeep : rxAfter s.wire.openBits (p, v) s.wire.rx = s.wire.rx :=
      rxAfter_of_closedBy_none (by rw [hopen, closedBy_none]) _
    by_cases he : (p, v) = (.cs, false)
    · -- the frame opens
      have hw : watchBoot (p, v) s = { s with boot := .opening (bootMet s) } := by simp [watchBoot, hb, he]
      rw [hw]
      refine fun _ => ⟨idle, hkeep.trans hrx, ?_⟩
      simp [he, nextOpen, hopen]
    · have hw : watchBoot (p, v) s = s := by simp [watchBoot, hb, he]
      rw [hw]
      refine fun _ => ⟨idle, hkeep.trans hrx, ?_⟩
      rw [pinWrite_boot, if_pos hb, pinWrite_wire, write_openBits, hopen, nextOpen_none _ he]
  | opening ok =>
    obtain ⟨idle, hrx, hopen⟩ := h (by simp [hb])
    rw [if_neg (by simp [hb])] at hopen
    by_cases he : (p, v) = (.cs, true)
    · -- the empty frame closes, and the receiver does not act on it
      have hw : watchBoot (p, v) s = { s with boot := .waiting } := by simp [watchBoot, hb, he]
      rw [hw]
      refine fun _ => ⟨idle, ?_, ?_⟩
      · show rxAfter s.wire.openBits (p, v) s.rx = _
        rw [he, hopen, hrx]
        rfl
      · simp [he, nextOpen]
    · cases hl : latches s.levels s.wire.openBits (p, v) with
      | true =>
        have hw : watchBoot (p, v) s = decideBoot ok s := by simp [watchBoot, hb, he, hl]
        exact bootTells_of_decided (by rw [pinWrite_boot, hw, decideBoot_boot])
      | false =>
        have hw : watchBoot (p, v) s = s := by simp [watchBoot, hb, he, hl]
        rw [hw]
        refine fun _ => ⟨idle, (rxAfter_of_closedBy_none (closedBy_eq_none _ he) _).trans hrx, ?_⟩
        rw [hopen] at hl
        rw [pinWrite_boot, if_neg (by simp [hb]), pinWrite_wire, write_openBits, hopen, nextOpen_empty he hl]

theorem BootTells.applyPinOp {s : State} (h : BootTells s) (op : PinOp) (p : Pin) : BootTells (applyPinOp op s p) := by
  cases op with
  | write b => exact h.pinWrite_watchBoot p b
  | _ => exact h

theorem BootTells.applyPinGroup {s : State} (h : BootTells s) (members : List Pin) (op : PinOp) :
    BootTells (applyPinGroup members op s) := by
  unfold Machine.applyPinGroup
  induction members generalizing s with
  | nil => exact h
  | cons p ps ih => exact ih (h.applyPinOp op p)

theorem BootTells.afterFrames {s : State} (h : BootTells s) (frames : List Bits) : BootTells (afterFrames frames s) := by
  induction frames generalizing s with
  | nil => exact h
  | cons bits frames ih => exact ih (bootTells_of_decided (afterFrame_boot bits s))

theorem BootTells.exec {i : Instr} {s t : State} (hs : BootTells s) (h : exec i s = .next t) : BootTells t := by
  cases exec_effect h with
  | frames _ bits f h => subst h; exact hs.afterFrames bits
  | shadow h => rw [h]; exact hs
  | pins members op _ h => subst h; exact hs.applyPinGroup members op
  | read _ _ h => subst h; exact hs
  | opens _ _ h => subst h; exact bootTells_of_decided (checkBoot_boot s)
  | shifts active _ h => subst h; exact bootTells_of_decided (hs.decided_of_active active)
  | closes _ active h => subst h; exact bootTells_of_decided (hs.decided_of_active active)
  | constructs _ h =>
    subst h
    intro hne
    obtain ⟨-, hrx, hopen⟩ := hs hne
    exact ⟨rfl, hrx, hopen⟩

theorem BootTells.step {s t : State} (hs : BootTells s) (h : step s = .next t) : BootTells t := by
  rcases step_effect h with rfl | ⟨rest, ⟨i, he⟩ | ⟨-, bits, rfl⟩⟩
  · exact hs
  · exact BootTells.exec (s := { s with pending := rest }) hs he
  · exact bootTells_of_decided (afterFrame_boot bits _)

/-- Settles O53: the pointer and the open frame are invariants of the wire, and `BootTells` is kept by each shape of
call. -/
theorem stepKeepsReceiverAtRest : Obligations.StepKeepsReceiverAtRest := by
  rintro s t ⟨hptr, hlow, hboot⟩ hstep
  exact ⟨(pointerIdle_iff t).mpr (wireClosed_atRest.step hstep ((pointerIdle_iff s).mp hptr)),
    wireClosed_openMeansLow.step hstep hlow, hboot.step hstep⟩

/-- Settles O51: at reset the log is empty, no frame is open and the receiver is as `device_init` gives it. -/
theorem resetMeetsTheInvariants : Obligations.ResetMeetsTheInvariants := by
  refine ⟨⟨rfl, rfl, fun _ => rfl⟩, ?pointer, ?noOpenFrame, fun _ => ⟨rfl, rfl, rfl⟩⟩
  case pointer => exact (pointerIdle_iff _).mpr ((atRest_defined Device.init).mpr rfl)
  case noOpenFrame => exact fun h => nomatch h

end Sys2Proof.Machine
end

section
/-! PROOFS. What the calls leave alone of the pins and the scope (10_state.md R14, R17; 40_transaction.md R69;
70_reset_and_hazards.md R131). -/

namespace Sys2Proof.Machine

/-! ## What frames and bits leave alone -/

@[simp] theorem afterFrames_dirs (frames : List Bits) (s : State) : (afterFrames frames s).dirs = s.dirs := by
  induction frames generalizing s with
  | nil => rfl
  | cons bits frames ih => rw [afterFrames_cons, ih, afterFrame_dirs]

@[simp] theorem afterFrames_levels_rd (frames : List Bits) (s : State) :
    (afterFrames frames s).wire.levels.rd = s.wire.levels.rd := by
  induction frames generalizing s with
  | nil => rfl
  | cons bits frames ih => rw [afterFrames_cons, ih]; rfl

theorem sendBits_levels (bits : Bits) (s : State) : (sendBits bits s).wire.levels = levelsSent bits s.wire.levels :=
  foldl_bitCycle_levels bits s.wire

/-! ## What pin-group operations leave alone -/

@[simp] theorem watchBoot_txn (e : Event) (s : State) : (watchBoot e s).txn = s.txn := by
  rcases watchBoot_cases e s with ⟨b, h, -⟩ | ⟨-, h⟩ <;> rw [h]

theorem applyPinOp_txn (op : PinOp) (s : State) (p : Pin) : (applyPinOp op s p).txn = s.txn := by
  cases op with
  | write b => exact watchBoot_txn (p, b) s
  | _ => rfl

theorem applyPinGroup_txn (members : List Pin) (op : PinOp) (s : State) :
    (applyPinGroup members op s).txn = s.txn := by
  unfold applyPinGroup
  induction members generalizing s with
  | nil => rfl
  | cons p ps ih => rw [List.foldl_cons, ih, applyPinOp_txn]

/-- No pin-group operation but a write touches the wire (R60). -/
theorem applyPinGroup_wire_of_ne_write (members : List Pin) {op : PinOp} (h : ∀ b, op ≠ .write b) (s : State) :
    (applyPinGroup members op s).wire = s.wire := by
  unfold applyPinGroup
  induction members generalizing s with
  | nil => rfl
  | cons p ps ih =>
    rw [List.foldl_cons, ih]
    cases op with
    | write b => exact absurd rfl (h b)
    | _ => rfl

/-! ## The obligations -/

/-- Settles O57, by the shapes of a call: every event of a frame, of `begin`, of `end` and of a shift is on `cs`, `wr` or
`data`. -/
theorem onlyPinGroupsTouchDirectionsAndRd : Obligations.OnlyPinGroupsTouchDirectionsAndRd := by
  intro i s t hpins h
  cases exec_effect h with
  | frames _ bits f h => subst h; exact ⟨afterFrames_dirs bits s, afterFrames_levels_rd bits s⟩
  | shadow h => rw [h]; exact ⟨rfl, rfl⟩
  | pins members op hi _ => exact absurd hi (hpins members op)
  | read _ _ h => subst h; exact ⟨rfl, rfl⟩
  | opens _ _ h =>
    subst h
    refine ⟨checkBoot_dirs s, ?_⟩
    show (checkBoot s).wire.levels.rd = s.levels.rd
    rw [checkBoot_levels]
  | shifts _ bits h => subst h; exact ⟨rfl, (congrArg PinLevels.rd (sendBits_levels bits s)).trans rfl⟩
  | closes _ _ h => subst h; exact ⟨rfl, rfl⟩
  | constructs _ h => subst h; exact ⟨rfl, rfl⟩

/-- Settles O58: a call that sends whole frames opens and closes its own scope, and no other shape of call but the three
named touches `txn`. -/
theorem onlyBeginEndAndConstructionMoveTheScope : Obligations.OnlyBeginEndAndConstructionMoveTheScope := by
  intro i s t hbegin hend hconstruct h
  cases exec_effect h with
  | frames _ bits f h => subst h; exact afterFrames_txn bits s
  | shadow h => rw [h]; rfl
  | pins members op _ h => subst h; exact applyPinGroup_txn members op s
  | read _ _ h => subst h; rfl
  | opens hi _ _ => exact absurd hi hbegin
  | shifts _ bits h => subst h; rfl
  | closes hi _ _ => exact absurd hi hend
  | constructs hi _ => exact absurd hi hconstruct

/-- Settles O59: `begin` lowers `cs`, bits sent do not move it, and every call that raises it leaves the scope idle. -/
theorem liveScopeHoldsCsLow : Obligations.LiveScopeHoldsCsLow := by
  intro i s t hwrite hs h active
  cases exec_effect h with
  | frames idle bits f h =>
    subst h
    rw [setFrame_txn, afterFrames_txn, idle] at active
    cases active
  | shadow h => rw [h] at active ⊢; exact hs active
  | pins members op hi h =>
    subst h
    rw [applyPinGroup_txn] at active
    have hne : ∀ b, op ≠ .write b := fun b hop => hwrite members b (hop ▸ hi)
    rw [State.levels, applyPinGroup_wire_of_ne_write members hne]
    exact hs active
  | read _ _ h => subst h; exact hs active
  | opens _ _ h => subst h; rfl
  | shifts live bits h => subst h; exact (congrArg PinLevels.cs (sendBits_levels bits s)).trans (hs live)
  | closes _ _ h => subst h; cases active
  | constructs _ h => subst h; cases active

end Sys2Proof.Machine
end

section
/-! PROOFS. Shadow rows (20_memory.md R30). -/

namespace Sys2Proof.Machine

/-- Settles O6, by the one law of a row read after a row write. -/
theorem rowWriteChangesOneRow : Obligations.RowWriteChangesOneRow := by
  intro s y z v
  exact ⟨(memRead_memWrite y y v s).trans (if_pos rfl), fun hne => (memRead_memWrite y z v s).trans (if_neg hne),
    onlyFrame_memWrite y v s⟩

end Sys2Proof.Machine
end

section
/-! PROOFS. Nothing the driver does depends on the receiver (00_scope.md R4, 20_memory.md R42, 45_wire_frames.md R103):
each shared operation, made with another receiver, answers the same but for the receiver. -/

namespace Sys2Proof.Machine

/-! ## Another receiver behind the same pins -/

/-- `s` with the receiver `r` behind the pins. -/
def State.withRx (r : Receiver) (s : State) : State := { s with wire := { s.wire with rx := r } }

/-- An answer with the receiver `r` in its next state, if it has one. -/
def answerWithRx (r : Receiver) : Result → Result
  | .next s => .next (s.withRx r)
  | .fault e => .fault e
  | .refused e => .refused e

/-- An update that never looks at the receiver: with another one, it leaves the same state but for the receiver. -/
def UpdateIgnoresRx (f : State → State) : Prop := ∀ s r, ∃ r', f (s.withRx r) = (f s).withRx r'

/-- A call that never looks at the receiver: with another one, it answers the same but for the receiver. -/
def CallIgnoresRx (op : State → Result) : Prop := ∀ s r, ∃ r', op (s.withRx r) = answerWithRx r' (op s)

/-! ## Putting operations together -/

theorem updateIgnoresRx_self : UpdateIgnoresRx fun s => s := fun _ r => ⟨r, rfl⟩

theorem UpdateIgnoresRx.comp {f g : State → State} (hg : UpdateIgnoresRx g) (hf : UpdateIgnoresRx f) :
    UpdateIgnoresRx fun s => g (f s) := by
  intro s r
  obtain ⟨r₁, h₁⟩ := hf s r
  obtain ⟨r₂, h₂⟩ := hg (f s) r₁
  exact ⟨r₂, (congrArg g h₁).trans h₂⟩

/-- A choice between two updates that does not turn on the receiver. -/
theorem UpdateIgnoresRx.ite {c : State → Prop} [DecidablePred c] {f g : State → State} (hf : UpdateIgnoresRx f)
    (hc : ∀ s r, c (s.withRx r) ↔ c s) (hg : UpdateIgnoresRx g) :
    UpdateIgnoresRx fun s => if c s then f s else g s := by
  intro s r
  by_cases h : c s
  · simp only [if_pos h, if_pos ((hc s r).mpr h)]
    exact hf s r
  · simp only [if_neg h, if_neg (mt (hc s r).mp h)]
    exact hg s r

theorem UpdateIgnoresRx.foldl {α : Type} {f : State → α → State} (h : ∀ a, UpdateIgnoresRx fun s => f s a)
    (l : List α) : UpdateIgnoresRx fun s => l.foldl f s := by
  induction l with
  | nil => exact updateIgnoresRx_self
  | cons a l ih => exact ih.comp (h a)

/-- A call after an update. -/
theorem CallIgnoresRx.comp {op : State → Result} {f : State → State} (hop : CallIgnoresRx op)
    (hf : UpdateIgnoresRx f) : CallIgnoresRx fun s => op (f s) := by
  intro s r
  obtain ⟨r₁, h₁⟩ := hf s r
  obtain ⟨r₂, h₂⟩ := hop (f s) r₁
  exact ⟨r₂, (congrArg op h₁).trans h₂⟩

theorem callIgnoresRx_next : CallIgnoresRx .next := fun _ r => ⟨r, rfl⟩
theorem callIgnoresRx_fault (e : Fault) : CallIgnoresRx fun _ => .fault e := fun _ r => ⟨r, rfl⟩
theorem callIgnoresRx_refused (e : Refusal) : CallIgnoresRx fun _ => .refused e := fun _ r => ⟨r, rfl⟩

/-- An update on its own is a call that always completes. -/
theorem UpdateIgnoresRx.next {f : State → State} (h : UpdateIgnoresRx f) : CallIgnoresRx fun s => .next (f s) :=
  callIgnoresRx_next.comp h

theorem CallIgnoresRx.andThen {op k : State → Result} (hop : CallIgnoresRx op) (hk : CallIgnoresRx k) :
    CallIgnoresRx fun s => andThen (op s) k := by
  intro s r
  obtain ⟨r₁, h₁⟩ := hop s r
  simp only [h₁]
  cases op s with
  | next t => exact hk t r₁
  | fault e => exact ⟨r₁, rfl⟩
  | refused e => exact ⟨r₁, rfl⟩

/-- A call whose operand is read from the state, though not from the receiver. -/
theorem CallIgnoresRx.of_read {α : Type} {read : State → α} {op : α → State → Result}
    (hread : ∀ s r, read (s.withRx r) = read s) (hop : ∀ a, CallIgnoresRx (op a)) :
    CallIgnoresRx fun s => op (read s) s := by
  intro s r
  simp only [hread]
  exact hop (read s) s r

/-! ## Pins -/

theorem updateIgnoresRx_pinWrite (p : Pin) (v : Level) : UpdateIgnoresRx (pinWrite p v) := fun _ _ => ⟨_, rfl⟩

/-- The check decides what becomes of the receiver, but not by looking at it (R133). -/
theorem updateIgnoresRx_decideBoot (ok : Bool) : UpdateIgnoresRx (decideBoot ok) := fun _ _ => ⟨_, rfl⟩

theorem updateIgnoresRx_checkBoot : UpdateIgnoresRx checkBoot := by
  intro s r
  simp only [checkBoot_eq]
  exact ⟨_, rfl⟩

theorem watchBoot_waiting (e : Event) (s : State) (h : s.boot = .waiting) :
    watchBoot e s = if e = (.cs, false) then { s with boot := .opening (bootMet s) } else s := by
  simp only [watchBoot, h]

theorem watchBoot_opening (e : Event) (ok : Bool) (s : State) (h : s.boot = .opening ok) :
    watchBoot e s = if e = (.cs, true) then { s with boot := .waiting }
      else if latches s.levels s.wire.openBits e then decideBoot ok s else s := by
  simp only [watchBoot, h]

/-- The check at a pin write turns on `boot`, the event, the levels and the open frame (R133). -/
theorem updateIgnoresRx_watchBoot (e : Event) : UpdateIgnoresRx (watchBoot e) := by
  intro s r
  cases hb : s.boot with
  | decided =>
    rw [watchBoot_decided e s hb, watchBoot_decided e (s.withRx r) hb]
    exact updateIgnoresRx_self s r
  | waiting =>
    have hopens : UpdateIgnoresRx fun s => { s with boot := .opening (bootMet s) } := fun _ r => ⟨r, rfl⟩
    rw [watchBoot_waiting e s hb, watchBoot_waiting e (s.withRx r) hb]
    exact hopens.ite (c := fun _ => e = (.cs, false)) (fun _ _ => Iff.rfl) updateIgnoresRx_self s r
  | opening ok =>
    have hcloses : UpdateIgnoresRx fun s => { s with boot := .waiting } := fun _ r => ⟨r, rfl⟩
    have hlatches : UpdateIgnoresRx fun s => if latches s.levels s.wire.openBits e then decideBoot ok s else s :=
      (updateIgnoresRx_decideBoot ok).ite (fun _ _ => Iff.rfl) updateIgnoresRx_self
    rw [watchBoot_opening e ok s hb, watchBoot_opening e ok (s.withRx r) hb]
    exact hcloses.ite (c := fun _ => e = (.cs, true)) (fun _ _ => Iff.rfl) hlatches s r

theorem updateIgnoresRx_applyPinOp (op : PinOp) (p : Pin) : UpdateIgnoresRx fun s => applyPinOp op s p := by
  cases op with
  | write b => exact (updateIgnoresRx_pinWrite p b).comp (updateIgnoresRx_watchBoot (p, b))
  | _ => exact fun _ r => ⟨r, rfl⟩

theorem updateIgnoresRx_applyPinGroup (members : List Pin) (op : PinOp) :
    UpdateIgnoresRx (applyPinGroup members op) :=
  UpdateIgnoresRx.foldl (updateIgnoresRx_applyPinOp op) members

/-! ## Transaction scope -/

/-- Bits sent close no frame, so the receiver is passed on as it was (R63, R103). -/
theorem updateIgnoresRx_sendBits (bits : Bits) : UpdateIgnoresRx (sendBits bits) := by
  induction bits with
  | nil => exact fun _ r => ⟨r, rfl⟩
  | cons b bits ih => exact UpdateIgnoresRx.comp (f := sendBits [b]) ih fun _ r => ⟨r, rfl⟩

theorem updateIgnoresRx_setTxn (txn : Txn) : UpdateIgnoresRx fun s => { s with txn := txn } := fun _ r => ⟨r, rfl⟩

/-- A call that goes one way from an idle scope and another from a live one. -/
theorem CallIgnoresRx.of_txn {op idleOp activeOp : State → Result}
    (hidle : ∀ s, s.txn = .idle → op s = idleOp s) (hactive : ∀ s, s.txn = .active → op s = activeOp s)
    (hi : CallIgnoresRx idleOp) (ha : CallIgnoresRx activeOp) : CallIgnoresRx op := by
  intro s r
  cases h : s.txn with
  | idle => rw [hidle s h, hidle (s.withRx r) h]; exact hi s r
  | active => rw [hactive s h, hactive (s.withRx r) h]; exact ha s r

theorem callIgnoresRx_beginScope (op : Instr) : CallIgnoresRx (beginScope op) :=
  .of_txn (beginScope_idle op) (beginScope_active op)
    (((updateIgnoresRx_setTxn .active).comp (updateIgnoresRx_pinWrite .cs false)).comp updateIgnoresRx_checkBoot).next
    (callIgnoresRx_fault _)

theorem shiftBitsOp_idle (n : Int) (v : Row) (s : State) (h : s.txn = .idle) :
    shiftBitsOp n v s = .fault (.shiftOutsideTransaction n v) := by
  simp only [shiftBitsOp, h]

theorem callIgnoresRx_shiftBitsOp (n : Int) (v : Row) : CallIgnoresRx (shiftBitsOp n v) := by
  by_cases hn : 0 ≤ n ∧ n ≤ 16
  · exact .of_txn (shiftBitsOp_idle n v) (fun s h => shiftBitsOp_active n v s h hn.1 hn.2) (callIgnoresRx_fault _)
      (updateIgnoresRx_sendBits _).next
  · have hout : n < 0 ∨ 16 < n := by omega
    exact .of_txn (shiftBitsOp_idle n v) (fun s h => by simp only [shiftBitsOp, h, if_pos hout]) (callIgnoresRx_fault _)
      (callIgnoresRx_fault (.shiftWidthOutOfRange n))

theorem endScope_idle (s : State) (h : s.txn = .idle) : endScope s = .fault .endWithoutBegin := by
  simp only [endScope, h]

theorem callIgnoresRx_endScope : CallIgnoresRx endScope :=
  .of_txn endScope_idle endScope_active (callIgnoresRx_fault _)
    ((updateIgnoresRx_setTxn .idle).comp (updateIgnoresRx_pinWrite .cs true)).next

theorem callIgnoresRx_sendFrame (op : Instr) (bits : Bits) : CallIgnoresRx (sendFrame op bits) :=
  (callIgnoresRx_beginScope op).andThen (callIgnoresRx_endScope.comp (updateIgnoresRx_sendBits bits))

/-! ## Commands -/

theorem callIgnoresRx_sendCmd (caller : Instr) (op : BitVec 8) : CallIgnoresRx (sendCmd caller op) :=
  (callIgnoresRx_beginScope caller).andThen ((callIgnoresRx_shiftBitsOp 12 _).andThen callIgnoresRx_endScope)

theorem callIgnoresRx_driverBrightness (caller : Instr) (level : Int) :
    CallIgnoresRx (driverBrightness caller level) := by
  unfold driverBrightness
  cases brightnessOf level with
  | some l => exact callIgnoresRx_sendCmd caller _
  | none => exact callIgnoresRx_next

/-! ## Shadow frame -/

theorem updateIgnoresRx_memWrite (y : Fin 24) (v : Row) : UpdateIgnoresRx (memWrite y v) := fun _ r => ⟨r, rfl⟩

theorem updateIgnoresRx_setFrame (f : Vector Row 24) : UpdateIgnoresRx (setFrame f) := fun _ r => ⟨r, rfl⟩

theorem callIgnoresRx_writeHeader (addr : BitVec 7) : CallIgnoresRx (writeHeader addr) :=
  (callIgnoresRx_shiftBitsOp 3 writeId).andThen (callIgnoresRx_shiftBitsOp 7 _)

/-- The words sent are read from the shadow frame (R82). -/
theorem callIgnoresRx_sendRows (word : Row → Row) (after : Row) (ys : List (Fin 24)) :
    CallIgnoresRx (sendRows word after ys) := by
  induction ys with
  | nil => exact callIgnoresRx_next
  | cons y ys ih =>
    have hsend : CallIgnoresRx fun s => shiftBitsOp 16 (word (memRead y s)) s :=
      .of_read (read := fun s => word (memRead y s)) (fun _ _ => rfl) (callIgnoresRx_shiftBitsOp 16)
    exact hsend.andThen (ih.comp (updateIgnoresRx_memWrite y after))

theorem callIgnoresRx_ramWriteOp (caller : Instr) (word : Row → Row) (after : Row) :
    CallIgnoresRx (ramWriteOp caller word after) :=
  (callIgnoresRx_beginScope caller).andThen <| (callIgnoresRx_writeHeader 0).andThen <|
    (callIgnoresRx_sendRows word after _).andThen callIgnoresRx_endScope

theorem callIgnoresRx_driverInit (caller : Instr) : CallIgnoresRx (driverInit caller) :=
  (callIgnoresRx_sendCmd caller _).andThen <| (callIgnoresRx_sendCmd caller _).andThen <|
    (callIgnoresRx_sendCmd caller _).andThen <| (callIgnoresRx_sendCmd caller _).andThen <|
    (callIgnoresRx_sendCmd caller _).andThen <| callIgnoresRx_ramWriteOp caller _ _

/-- Whether a pixel is in range is a matter of its coordinates (R84). -/
theorem updateIgnoresRx_updatePixel (f : Row → Row) (x y : Int) : UpdateIgnoresRx (updatePixel f x y) := by
  unfold updatePixel
  intro s r
  split
  · split <;> exact ⟨r, rfl⟩
  · exact ⟨r, rfl⟩

theorem updateIgnoresRx_setPixelOp (x y : Int) : UpdateIgnoresRx (setPixelOp x y) :=
  updateIgnoresRx_updatePixel (fun w => w ||| (1#16 <<< x.toNat)) x y

theorem updateIgnoresRx_surfaceWriteOp (p : Point) (c : Color) : UpdateIgnoresRx (surfaceWriteOp p c) := by
  cases c with
  | off => exact updateIgnoresRx_self
  | lit code => exact updateIgnoresRx_setPixelOp p.x p.y

theorem updateIgnoresRx_plotAll (pts : List Point) : UpdateIgnoresRx (plotAll pts) :=
  UpdateIgnoresRx.foldl (fun p => updateIgnoresRx_surfaceWriteOp p Color.ink) pts

/-- Whether a drawable is refused is a matter of the drawable (R91). -/
theorem callIgnoresRx_withDrawable (d : Drawable) (surface : SurfaceRef) (pts : List Point) :
    CallIgnoresRx fun s => withDrawable d (.next (drawOn surface pts s)) := by
  simp only [drawOn_eq, withDrawable]
  split
  · exact (updateIgnoresRx_plotAll pts).next
  · exact callIgnoresRx_refused _

/-! ## Calls

Whether an operand is refused is a matter of the operand (R122). -/

theorem callIgnoresRx_execShiftBits (n v : Int) : CallIgnoresRx (execShiftBits n v) := by
  unfold execShiftBits
  cases shiftValueOf v with
  | some w => exact callIgnoresRx_shiftBitsOp n w
  | none => exact callIgnoresRx_refused _

theorem callIgnoresRx_execCmd (op : Int) : CallIgnoresRx (execCmd op) := by
  unfold execCmd
  cases opcodeOf op with
  | some b => exact callIgnoresRx_sendCmd _ b
  | none => exact callIgnoresRx_refused _

theorem callIgnoresRx_execReplaceFrame (w : List Row) : CallIgnoresRx (execReplaceFrame w) := by
  unfold execReplaceFrame
  cases frameOf w with
  | some f => exact (updateIgnoresRx_setFrame f).next
  | none => exact callIgnoresRx_refused _

theorem callIgnoresRx_execDrawableCall (c : DrawableCall) : CallIgnoresRx (execDrawableCall c) := by
  unfold execDrawableCall
  cases illFormedIn c with
  | none => exact callIgnoresRx_next
  | some d => exact callIgnoresRx_refused _

/-- No call looks at the receiver (R42). -/
theorem callIgnoresRx_exec (i : Instr) : CallIgnoresRx (exec i) := by
  cases i with
  | sysDis | sysEn | ledOff | ledOn | blinkOff | masterMode | comOption | brightnessFrame | cmdUnlisted | writeRam =>
    exact callIgnoresRx_sendFrame _ _
  | pinGroupOp members op => exact (updateIgnoresRx_applyPinGroup members op).next
  | pinGroupRead members => exact fun _ r => ⟨r, rfl⟩
  | beginTxn => exact callIgnoresRx_beginScope _
  | shiftBits n v => exact callIgnoresRx_execShiftBits n v
  | endTxn => exact callIgnoresRx_endScope
  | cmd op => exact callIgnoresRx_execCmd op
  | initDriver => exact callIgnoresRx_driverInit _
  | shutdownLeds | shutdown => exact callIgnoresRx_sendCmd _ _
  | setBrightness level => exact callIgnoresRx_driverBrightness _ level
  | constructDriver => exact ((updateIgnoresRx_setTxn .idle).comp (updateIgnoresRx_setFrame _)).next
  | clear | fill | flush | surfaceFlush => exact callIgnoresRx_ramWriteOp _ _ _
  | setPixel x y => exact (updateIgnoresRx_setPixelOp x y).next
  | clearPixel x y => exact (updateIgnoresRx_updatePixel _ x y).next
  | replaceFrame w => exact callIgnoresRx_execReplaceFrame w
  | surfaceInit => exact (callIgnoresRx_driverInit _).andThen (callIgnoresRx_driverBrightness _ 15)
  | surfaceWrite p c => exact (updateIgnoresRx_surfaceWriteOp p c).next
  | surfaceClear => exact (UpdateIgnoresRx.foldl (fun y => updateIgnoresRx_memWrite y 0x0000) _).next
  | lineDraw | rectDraw | rectFill | circleDraw => exact callIgnoresRx_withDrawable _ _ _
  | drawableCall c => exact callIgnoresRx_execDrawableCall c

/-- Settles O56: no call looks at the receiver, so the three kinds of answer agree but for the receiver. -/
theorem driverNeverReadsTheReceiver : Obligations.DriverNeverReadsTheReceiver := by
  intro i s r
  obtain ⟨r', h⟩ := callIgnoresRx_exec i s r
  refine ⟨fun t ht => ⟨r', h.trans ?_⟩, fun f hf => h.trans ?_, fun e he => h.trans ?_⟩
  · rw [ht]; rfl
  · rw [hf]; rfl
  · rw [he]; rfl

end Sys2Proof.Machine
end

section
/-! PROOFS. Encoding (30_encoding.md R45 to R55): the two frame formats, which the decoder accepts
and the encoder writes, each whole. -/

namespace Sys2Proof.Machine

/-! ## The frames of the opcode table -/

/-- The frames of the opcode table, each with the instruction it is: a command word (R46, R49, R50), or a RAM write
whose residual bits make no whole word (R47, R113). -/
inductive IsFrame : Instr → Bits → Prop where
  | command (op : BitVec 8) : IsFrame (decodeOpcode op) (commandBits op)
  | ramWrite (addr : BitVec 7) (words : List Row) (residual : Bits) (short : residual.length < 16) :
      IsFrame (.writeRam addr words residual) (ramWriteBits addr words residual)

/-- Any bits of the right length are the field of the word they hold (R45). -/
theorem wireBits_fieldWord {n : Nat} {b : Bits} (h : b.length = n) : wireBits n (fieldWord n b).toNat = b := by
  subst h
  rw [fieldWord, BitVec.toNat_ofNat, Nat.mod_eq_of_lt (fieldValue_lt b), wireBits_fieldValue]

/-! ## Command frames -/

/-- The bits after the ID of a command are its opcode and a 0 (R46). -/
theorem commandBits_eq_cons (op : BitVec 8) :
    commandBits op = true :: false :: false :: (wireBits 8 op.toNat ++ [false]) := commandBits_eq op

theorem decodeCommand_wireBits (op : BitVec 8) :
    decodeCommand (wireBits 8 op.toNat ++ [false]) = .ok (decodeOpcode op) := by
  simp [decodeCommand, List.take_left', fieldWord_wireBits]

/-- A command is accepted only with 8 opcode bits and a trailing 0 (R54, R55). -/
theorem eq_of_decodeCommand {rest : Bits} {i : Instr} (h : decodeCommand rest = .ok i) :
    ∃ op, rest = wireBits 8 op.toNat ++ [false] ∧ i = decodeOpcode op := by
  obtain rfl | ⟨opcode, last, rfl⟩ := rest.eq_nil_or_concat'
  · cases h
  simp only [decodeCommand, List.length_append, List.length_singleton, List.getLastD_concat] at h
  split at h
  · cases h
  split at h
  · cases h
  split at h
  · cases h
  next hge hle hlast =>
  have hlen : opcode.length = 8 := by omega
  rw [List.take_left' hlen, Except.ok.injEq] at h
  exact ⟨fieldWord 8 opcode, by rw [wireBits_fieldWord hlen, Bool.eq_false_iff.mpr hlast], h.symm⟩

/-! ## RAM writes -/

theorem ramWriteBits_eq_cons (addr : BitVec 7) (words : List Row) (residual : Bits) :
    ramWriteBits addr words residual =
      true :: false :: true :: (wireBits 7 addr.toNat ++ (wordBits words ++ residual)) := by
  simp [ramWriteBits_eq, wramFrame, wordBits]

theorem decodeRamWrite_wireBits (addr : BitVec 7) (words : List Row) {residual : Bits} (short : residual.length < 16) :
    decodeRamWrite (wireBits 7 addr.toNat ++ (wordBits words ++ residual)) = .ok (.writeRam addr words residual) := by
  have hcount : (16 * words.length + residual.length) / 16 = words.length := by omega
  simp [decodeRamWrite, ← List.drop_drop, List.take_left', List.drop_left', fieldWord_wireBits, hcount,
    payloadWords_wordBits]

/-- The first `k` whole words of a payload are its first `16 * k` bits: no bit is dropped (R48, R113). -/
theorem wordBits_payloadWords (k : Nat) (payload : Bits) (h : 16 * k ≤ payload.length) :
    wordBits (payloadWords k payload) = payload.take (16 * k) := by
  induction k generalizing payload with
  | zero => rfl
  | succ k ih =>
    have hword : (payload.take 16).length = 16 := by rw [List.length_take]; omega
    have hrest : 16 * k ≤ (payload.drop 16).length := by rw [List.length_drop]; omega
    calc wordBits (payloadWords (k + 1) payload)
        = wireBits 16 (fieldWord 16 (payload.take 16)).toNat ++ wordBits (payloadWords k (payload.drop 16)) := rfl
      _ = payload.take 16 ++ (payload.drop 16).take (16 * k) := by rw [wireBits_fieldWord hword, ih _ hrest]
      _ = payload.take (16 * (k + 1)) := by rw [← List.take_add, Nat.mul_succ, Nat.add_comm]

/-- A RAM write is accepted only with a whole header, and every bit after it is in a word or is residual (R47, R55,
R113). -/
theorem eq_of_decodeRamWrite {rest : Bits} {i : Instr} (h : decodeRamWrite rest = .ok i) :
    ∃ addr words residual, residual.length < 16 ∧ rest = wireBits 7 addr.toNat ++ (wordBits words ++ residual) ∧
      i = .writeRam addr words residual := by
  unfold decodeRamWrite at h
  split at h
  · cases h
  next hheader =>
  refine ⟨_, _, _, ?_, ?_, (Except.ok.inj h).symm⟩
  · rw [List.length_drop]; omega
  · have haddr : (rest.take 7).length = 7 := by rw [List.length_take]; omega
    rw [wireBits_fieldWord haddr, wordBits_payloadWords _ _ (by rw [List.length_drop]; omega), ← List.drop_drop,
      List.take_append_drop, List.take_append_drop]

/-! ## Decoding and encoding -/

theorem IsFrame.decode_eq_ok {i : Instr} {bits : Bits} (h : IsFrame i bits) : decode bits = .ok i := by
  cases h with
  | command op => rw [commandBits_eq_cons]; exact decodeCommand_wireBits op
  | ramWrite addr words residual short => rw [ramWriteBits_eq_cons]; exact decodeRamWrite_wireBits addr words short

theorem isFrame_of_decode {i : Instr} {bits : Bits} (h : decode bits = .ok i) : IsFrame i bits := by
  unfold decode at h
  split at h
  · cases h
  · cases h
  · cases h
  case h_4 rest =>
    obtain ⟨op, rfl, rfl⟩ := eq_of_decodeCommand h
    rw [← commandBits_eq_cons]
    exact .command op
  case h_5 rest =>
    obtain ⟨addr, words, residual, short, rfl, rfl⟩ := eq_of_decodeRamWrite h
    rw [← ramWriteBits_eq_cons]
    exact .ramWrite addr words residual short
  · cases h

theorem decodeOpcode_brightnessOpcode (level : BitVec 4) :
    decodeOpcode (brightnessOpcode level) = .brightnessFrame level := by
  revert level
  decide

/-- An opcode with high nibble A is that of its low nibble's level (R50). -/
theorem brightnessOpcode_extractLsb' {op : BitVec 8} (h : op.extractLsb' 4 4 = 0xA) :
    brightnessOpcode (op.extractLsb' 0 4) = op := by
  revert op
  decide +kernel

theorem decodeOpcode_of_unlisted {op : BitVec 8} (h : listedOpcode op = false) : decodeOpcode op = .cmdUnlisted op := by
  simp only [listedOpcode, Bool.or_eq_false_iff, beq_eq_false_iff_ne, and_assoc] at h
  obtain ⟨h00, h01, h02, h03, h08, h18, h24, hA⟩ := h
  rw [decodeOpcode, if_neg h00, if_neg h01, if_neg h02, if_neg h03, if_neg h08, if_neg h18, if_neg h24, if_neg hA]

/-- Every opcode names an instruction that is well formed and has that opcode's command word (R49, R50). -/
theorem encode_decodeOpcode (op : BitVec 8) :
    encode (decodeOpcode op) = some (commandBits op) ∧ (decodeOpcode op).wf = true := by
  by_cases hlisted : listedOpcode op = true
  · simp only [listedOpcode, Bool.or_eq_true, beq_iff_eq, or_assoc] at hlisted
    obtain rfl | rfl | rfl | rfl | rfl | rfl | rfl | hA := hlisted
    case inr.inr.inr.inr.inr.inr.inr =>
      rw [← brightnessOpcode_extractLsb' hA, decodeOpcode_brightnessOpcode]
      exact ⟨rfl, rfl⟩
    all_goals exact ⟨rfl, rfl⟩
  · rw [decodeOpcode_of_unlisted (Bool.eq_false_iff.mpr hlisted)]
    exact ⟨rfl, by simp [Instr.wf, hlisted]⟩

theorem IsFrame.encode_eq_some {i : Instr} {bits : Bits} (h : IsFrame i bits) :
    encode i = some bits ∧ i.wf = true := by
  cases h with
  | command op => exact encode_decodeOpcode op
  | ramWrite addr words residual short => exact ⟨rfl, decide_eq_true short⟩

/-- The encoder gives bits to the wire frames alone, and those of a well-formed one are a frame of the table. -/
theorem isFrame_of_encode {i : Instr} {bits : Bits} (hwf : i.wf = true) (h : encode i = some bits) :
    IsFrame i bits := by
  cases i <;> simp only [encode, Option.some.injEq, reduceCtorEq] at h <;> subst h
  case sysDis => exact .command 0x00
  case sysEn => exact .command 0x01
  case ledOff => exact .command 0x02
  case ledOn => exact .command 0x03
  case blinkOff => exact .command 0x08
  case masterMode => exact .command 0x18
  case comOption => exact .command 0x24
  case brightnessFrame level => exact decodeOpcode_brightnessOpcode level ▸ .command (brightnessOpcode level)
  case cmdUnlisted op =>
    have hunlisted : listedOpcode op = false := by simpa [Instr.wf] using hwf
    exact decodeOpcode_of_unlisted hunlisted ▸ .command op
  case writeRam addr words residual => exact .ramWrite addr words residual (of_decide_eq_true hwf)

/-- Settles O3: a well-formed wire frame is one of the two frame formats, and the decoder reads each back. -/
theorem decodeOfEncodeIsTheInstruction : Obligations.DecodeOfEncodeIsTheInstruction :=
  fun _ _ hwf henc => (isFrame_of_encode hwf henc).decode_eq_ok

/-- Settles O4: what the decoder accepts is one of the two frame formats, whole, and the encoder writes each so. -/
theorem decodedFrameEncodesBack : Obligations.DecodedFrameEncodesBack :=
  fun _ _ hdec => (isFrame_of_decode hdec).encode_eq_some

/-- Settles O2: each word is the command frame of its opcode, or the RAM write of its address, words and residual
bits. -/
theorem opcodeMapWordsDecode : Obligations.OpcodeMapWordsDecode :=
  ⟨(IsFrame.command 0x00).decode_eq_ok, (IsFrame.command 0x01).decode_eq_ok, (IsFrame.command 0x24).decode_eq_ok,
    (IsFrame.command 0xAF).decode_eq_ok, (IsFrame.command 0xFF).decode_eq_ok,
    (IsFrame.ramWrite 5 [0x8002] [true] (by decide)).decode_eq_ok⟩

end Sys2Proof.Machine
end

section
/-! PROOFS. Frames on the pins (30_encoding.md R43, R44, R49, R50; 45_wire_frames.md R104 to R113): the bits each wire
frame is sent as, and the frame read back from the event log. -/

namespace Sys2Proof.Machine

/-! ## Wire frames sent -/

/-- Settles O20: each wire frame is `sendFrame` of its bits, and those are the frame format's. -/
theorem eachWireFrameIsSentAsItsBits : Obligations.EachWireFrameIsSentAsItsBits := by
  intro s idle
  refine ⟨sendFrame_idle .sysDis _ s idle, sendFrame_idle .sysEn _ s idle, sendFrame_idle .ledOff _ s idle,
    sendFrame_idle .ledOn _ s idle, sendFrame_idle .blinkOff _ s idle, sendFrame_idle .masterMode _ s idle,
    sendFrame_idle .comOption _ s idle, fun level => ?brightness, fun op => ?unlisted,
    fun addr words residual => ?ramWrite⟩
  case brightness =>
    rw [← brightnessOpcode_toNat, ← commandBits_eq]
    exact sendFrame_idle (.brightnessFrame level) _ s idle
  case unlisted =>
    rw [← commandBits_eq]
    exact sendFrame_idle (.cmdUnlisted op) _ s idle
  case ramWrite =>
    rw [← ramWriteBits_eq]
    exact sendFrame_idle (.writeRam addr words residual) _ s idle

/-! ## Frames read back from the log -/

/-- Only `cs` rising closes a frame, so events without it add none (R43). -/
theorem framesOf_append_of_no_close (l : PinLevels) (events : List Event) {more : List Event}
    (h : (.cs, true) ∉ more) : framesOf l (events ++ more) = framesOf l events := by
  induction more using List.reverseRecOn with
  | nil => rw [List.append_nil]
  | append_singleton more e ih =>
    simp only [List.mem_append, List.mem_singleton, not_or] at h
    obtain ⟨hmore, he⟩ := h
    rw [← List.append_assoc, framesOf_append, closedBy_eq_none _ (Ne.symm he), Option.toList_none, List.append_nil,
      ih hmore]

/-- The wire that an event log tells of, with a receiver that reads nothing. -/
def wireOfLog (l : PinLevels) (events : List Event) : Wire where
  levels := (wireView l events).levels
  log := events.reverse
  openBits := (wireView l events).openBits
  rx := .unbooted

theorem wireTells_wireOfLog (l : PinLevels) (events : List Event) : WireTells l (wireOfLog l events) := by
  simp [WireTells, wireOfLog]

/-- A frame opened with `cs` high and the bits sent after it stand open in the log (R43, R44). -/
theorem openBits_of_log (l : PinLevels) (events : List Event) (bits : Bits)
    (hcs : (wireView l events).levels.cs = true) :
    (wireView l (events ++ (.cs, false) :: bits.flatMap cycleEvents)).openBits = some bits.reverse := by
  have hopened : ((wireOfLog l events).write .cs false).openBits = some [] := by
    simp [nextOpen, wireOfLog, hcs]
  have hsent := foldl_bitCycle bits ((wireOfLog l events).write .cs false) [] rfl hopened
  have htells := (wireClosed_wireTells l).bits bits _ ((wireTells_wireOfLog l events).write .cs false)
  rw [hsent] at htells
  obtain ⟨-, hopen, -⟩ := htells
  simpa [wireOfLog] using hopen

/-- Settles O18: the bits stand open when `cs` rises, which closes that one frame and no other. -/
theorem logReadsBackEverySentFrame : Obligations.LogReadsBackEverySentFrame := by
  intro l events bits hcs
  have hnoClose : (.cs, true) ∉ (.cs, false) :: bits.flatMap cycleEvents := by simp [cycleEvents]
  rw [frameEvents, ← List.cons_append, ← List.append_assoc, framesOf_append, openBits_of_log l events bits hcs,
    framesOf_append_of_no_close l events hnoClose]
  simp [closedBy]

end Sys2Proof.Machine
end

section
/-! PROOFS. Pin groups (40_transaction.md R58 to R60): an operation is applied member by member, and what each kind of
operation leaves behind after the last member. -/

namespace Sys2Proof.Machine

/-! ## Member by member -/

@[simp] theorem applyPinGroup_nil (op : PinOp) (s : State) : applyPinGroup [] op s = s := rfl

@[simp] theorem applyPinGroup_cons (p : Pin) (members : List Pin) (op : PinOp) (s : State) :
    applyPinGroup (p :: members) op s = applyPinGroup members op (applyPinOp op s p) := rfl

theorem exec_pinGroupOp (members : List Pin) (op : PinOp) (s : State) :
    exec (.pinGroupOp members op) s = .next (applyPinGroup members op s) := rfl

/-- Settles O7: the members are the list that the group's loop runs along. -/
theorem pinGroupAppliesMembersInOrder : Obligations.PinGroupAppliesMembersInOrder := by
  intro op s
  refine ⟨?none, fun p members => ?first⟩
  case none => rw [exec_pinGroupOp, applyPinGroup_nil]
  case first => simp only [exec_pinGroupOp, applyPinGroup_cons, applyPinGroup_nil, andThen_next]

/-- Settles O10: the value kept in `readOut` is whether some member is high. -/
theorem pinGroupReadIsTheOrOfItsMembers : Obligations.PinGroupReadIsTheOrOfItsMembers :=
  fun members s => ⟨readPinGroup members s, rfl, List.any_eq_true⟩

/-! ## Directions and commits -/

theorem dirs_get_foldl_set (members : List Pin) (d : PinDirs) (v : Direction) (q : Pin) :
    (members.foldl (fun d p => d.set p v) d).get q = if q ∈ members then v else d.get q := by
  induction members generalizing d with
  | nil => simp
  | cons p ps ih =>
    rw [List.foldl_cons, ih, dirs_get_set]
    by_cases hq : q ∈ ps <;> simp [hq]

/-- A group operation that gives each member one direction changes the directions alone (R60). -/
theorem applyPinGroup_of_setDirection {op : PinOp} {v : Direction} (h : ∀ s p, applyPinOp op s p = setDirection p v s)
    (members : List Pin) (s : State) :
    applyPinGroup members op s = { s with dirs := members.foldl (fun d p => d.set p v) s.dirs } := by
  induction members generalizing s with
  | nil => rfl
  | cons p ps ih => rw [applyPinGroup_cons, h, ih]; rfl

/-- What a direction operation answers, read pin by pin (R60). -/
theorem exec_pinGroupOp_of_setDirection {op : PinOp} {v : Direction}
    (h : ∀ s p, applyPinOp op s p = setDirection p v s) (members : List Pin) (s : State) :
    ∃ t, exec (.pinGroupOp members op) s = .next t ∧ t = { s with dirs := t.dirs } ∧
      ∀ p, t.dirs.get p = if p ∈ members then v else s.dirs.get p := by
  rw [exec_pinGroupOp, applyPinGroup_of_setDirection h]
  exact ⟨_, rfl, rfl, dirs_get_foldl_set members s.dirs v⟩

/-- A group operation that changes nothing at a member changes nothing (R15, R60). -/
theorem exec_pinGroupOp_of_commit {op : PinOp} (h : ∀ s p, applyPinOp op s p = s) (members : List Pin) (s : State) :
    exec (.pinGroupOp members op) s = .next s :=
  congrArg Host.Outcome.next (List.foldl_fixed' (h s) members)

/-- Settles O8: each direction operation sets one direction at each member, and the three commits leave each member as it
is. -/
theorem pinGroupDirectionsAndCommits : Obligations.PinGroupDirectionsAndCommits := fun members s =>
  ⟨exec_pinGroupOp_of_setDirection (fun _ _ => rfl) members s,
    exec_pinGroupOp_of_setDirection (fun _ _ => rfl) members s,
    exec_pinGroupOp_of_commit (fun _ _ => rfl) members s,
    exec_pinGroupOp_of_commit (fun _ _ => rfl) members s,
    exec_pinGroupOp_of_commit (fun _ _ => rfl) members s⟩

/-! ## Writes -/

@[simp] theorem unboot_unboot (r : Receiver) : r.unboot.unboot = r.unboot := by cases r <;> rfl

/-- `t` is `s` after `write(b)` on the members: one event each, in order, and each member at b (R58, R60). A group
without `cs` closes no frame, so all that can become of the receiver is that it is found undefined at the run's first
transaction (R133). -/
structure WritesMembers (members : List Pin) (b : Level) (s t : State) : Prop where
  events : t.events = s.events ++ members.map (fun p => (p, b))
  levels : ∀ p, t.levels.get p = if p ∈ members then b else s.levels.get p
  rx : Pin.cs ∉ members → t.rx = s.rx ∨ (s.boot ≠ .decided ∧ t.rx = s.rx.unboot)
  boot : s.boot = .decided → t.boot = .decided
  rest : t = { s with wire := t.wire, boot := t.boot }

theorem WritesMembers.nil (b : Level) (s : State) : WritesMembers [] b s s where
  events := by simp
  levels := by simp
  rx _ := .inl rfl
  boot := id
  rest := rfl

/-- The check before a pin write touches the receiver and `boot` alone, and that only before the run's first
transaction (R133). -/
theorem watchBoot_effect (e : Event) (s : State) :
    (watchBoot e s).events = s.events ∧ (watchBoot e s).levels = s.levels ∧
    ((watchBoot e s).rx = s.rx ∨ (s.boot ≠ .decided ∧ (watchBoot e s).rx = s.rx.unboot)) ∧
    (s.boot = .decided → (watchBoot e s).boot = .decided) ∧
    watchBoot e s = { s with wire := (watchBoot e s).wire, boot := (watchBoot e s).boot } := by
  rcases watchBoot_cases e s with ⟨b, h, hb⟩ | ⟨hs, h⟩ <;> rw [h]
  · exact ⟨rfl, rfl, .inl rfl, hb, rfl⟩
  · exact ⟨rfl, rfl, .inr ⟨by simp [hs], rfl⟩, fun _ => rfl, rfl⟩

theorem writesMembers_singleton (p : Pin) (b : Level) (s : State) :
    WritesMembers [p] b s (applyPinOp (.write b) s p) := by
  obtain ⟨hevents, hlevels, hrx, hboot, hrest⟩ := watchBoot_effect (p, b) s
  refine ⟨?events, fun q => ?levels, fun hcs => ?rx, hboot, ?rest⟩
  case events => exact (pinWrite_events p b _).trans (congrArg (· ++ [(p, b)]) hevents)
  case levels =>
    have hset : (applyPinOp (.write b) s p).levels = s.levels.set p b := congrArg (·.set p b) hlevels
    rw [hset, levels_get_set]
    simp only [List.mem_singleton]
  case rx =>
    have hclose : (p, b) ≠ (.cs, true) := fun h => hcs (by simp [(Prod.mk.inj h).1])
    have hkeep : (applyPinOp (.write b) s p).rx = (watchBoot (p, b) s).rx :=
      rxAfter_of_closedBy_none (closedBy_eq_none _ hclose) _
    rwa [hkeep]
  case rest => exact congrArg (pinWrite p b) hrest

theorem WritesMembers.append {ms ns : List Pin} {b : Level} {s t u : State} (h : WritesMembers ms b s t)
    (k : WritesMembers ns b t u) : WritesMembers (ms ++ ns) b s u where
  events := by rw [k.events, h.events, List.map_append, List.append_assoc]
  levels p := by
    rw [k.levels, h.levels]
    by_cases hp : p ∈ ns <;> simp [hp]
  rx hcs := by
    simp only [List.mem_append, not_or] at hcs
    obtain ⟨hms, hns⟩ := hcs
    rcases k.rx hns with hu | ⟨hwaits, hu⟩
    · rw [hu]; exact h.rx hms
    · refine .inr ⟨fun hs => hwaits (h.boot hs), ?_⟩
      rcases h.rx hms with ht | ⟨-, ht⟩
      · rw [hu, ht]
      · rw [hu, ht, unboot_unboot]
  boot hs := k.boot (h.boot hs)
  rest := by
    have hu := k.rest
    rw [h.rest] at hu
    exact hu

theorem writesMembers_applyPinGroup (members : List Pin) (b : Level) (s : State) :
    WritesMembers members b s (applyPinGroup members (.write b) s) := by
  induction members generalizing s with
  | nil => exact .nil b s
  | cons p ps ih => exact (writesMembers_singleton p b s).append (ih _)

/-- Settles O9, by induction on the members: one member's write is the boot check and a pin write, and writes put
together are a write. -/
theorem pinGroupWriteDrivesItsMembers : Obligations.PinGroupWriteDrivesItsMembers := by
  intro members b s
  obtain ⟨hevents, hlevels, hrx, hboot, hrest⟩ := writesMembers_applyPinGroup members b s
  exact ⟨_, exec_pinGroupOp members (.write b) s, hevents, hlevels, hrx, hboot, hrest⟩

end Sys2Proof.Machine
end

section
/-! PROOFS. The transaction scope (40_transaction.md R61 to R67, R70): its opening and its closing, and the bits shifted
out in between. -/

namespace Sys2Proof.Machine

/-! ## Opening and closing -/

theorem checkBoot_events (s : State) : (checkBoot s).events = s.events := by simp [State.events]

/-- `cs` driven low leaves a frame open, whatever was open before (R43). -/
theorem nextOpen_cs_low (l : PinLevels) (openBits : Option Bits) :
    nextOpen l openBits (.cs, false) = some (if l.cs then [] else openBits.getD []) := by
  cases hcs : l.cs <;> simp [nextOpen, hcs]

/-- Settles O11: an idle scope opens by the boot check and `cs` driven low. -/
theorem beginOpensTheScope : Obligations.BeginOpensTheScope := by
  intro s
  refine ⟨fun idle => ⟨_, beginScope_idle .beginTxn s idle, rfl, ?events, ?levels, ?opened, fun high => ?emptyFrame,
    checkBoot_dirs s, checkBoot_frame s, checkBoot_pending s, checkBoot_readOut s⟩, beginScope_active .beginTxn s⟩
  case events => exact (pinWrite_events .cs false _).trans (by rw [checkBoot_events])
  case levels => exact congrArg (·.set .cs false) (checkBoot_levels s)
  case opened => simp [State.openFrame, nextOpen_cs_low]
  case emptyFrame => simp [State.openFrame, nextOpen_cs_low, high]

/-- Settles O13: a live scope closes by `cs` driven high; `begin` and `end` with nothing between send the frame of no
bits, which the log reads back. -/
theorem endClosesTheScope : Obligations.EndClosesTheScope := by
  intro s
  refine ⟨fun active => ⟨_, endScope_active s active, rfl, pinWrite_events .cs true s, rfl, rfl, rfl, rfl, rfl, rfl, rfl⟩,
    endScope_idle s, fun idle => ⟨afterFrame [] s, sendFrame_idle .beginTxn [] s idle, fun l high => ?_⟩⟩
  rw [afterFrame_events, logReadsBackEverySentFrame l s.events [] high]

/-! ## The bits of a shift -/

theorem wireBits_eq_nil_iff (n v : Nat) : wireBits n v = [] ↔ n = 0 := by
  rw [← List.length_eq_zero_iff, wireBits_length]

/-- The last bit sent is bit 0 (R62). -/
theorem getLastD_wireBits (n v : Nat) (b : Bool) :
    (wireBits n v).getLastD b = if n = 0 then b else v.testBit 0 := by
  cases n with
  | zero => rfl
  | succ n => simp [wireBits, List.range_succ]

/-- The bits of a concatenated field are those of its two parts, one after the other (R70). -/
theorem wireBits_add (n m a : Nat) {b : Nat} (hb : b < 2 ^ m) :
    wireBits (n + m) (a * 2 ^ m + b) = wireBits n a ++ wireBits m b := by
  rw [wireBits, List.range_add, List.map_append, List.map_map, Nat.mul_comm]
  refine congrArg₂ _ (List.map_congr_left fun i hi => ?high) (List.map_congr_left fun i hi => ?low)
  case high =>
    have hi := List.mem_range.mp hi
    rw [Nat.testBit_two_pow_mul_add a hb, if_neg (by omega), show n + m - 1 - i - m = n - 1 - i by omega]
  case low =>
    have hi := List.mem_range.mp hi
    rw [Function.comp_apply, Nat.testBit_two_pow_mul_add a hb, if_pos (by omega),
      show n + m - 1 - (n + i) = m - 1 - i by omega]

/-! ## Shifts inside a live scope -/

theorem shiftValueOf_eq_some {v : Int} (h0 : 0 ≤ v) (h1 : v < 65536) :
    shiftValueOf v = some (BitVec.ofNat 16 v.toNat) := if_pos ⟨h0, h1⟩

/-- A shift of operands in their domain sends the low bits of its value and does nothing else (R62, R65). -/
theorem exec_shiftBits_active {s : State} (active : s.txn = .active) {n v : Int} (hn0 : 0 ≤ n) (hn : n ≤ 16)
    (hv0 : 0 ≤ v) (hv : v < 65536) :
    exec (.shiftBits n v) s = .next (sendBits (wireBits n.toNat v.toNat) s) := by
  have hvalue : (BitVec.ofNat 16 v.toNat).toNat = v.toNat := by
    rw [BitVec.toNat_ofNat, Nat.mod_eq_of_lt (by omega)]
  calc exec (.shiftBits n v) s
      = shiftBitsOp n (BitVec.ofNat 16 v.toNat) s := by
        simp only [exec, execShiftBits, shiftValueOf_eq_some hv0 hv]
    _ = .next (sendBits (wireBits n.toNat v.toNat) s) := by
        rw [shiftBitsOp_active _ _ s active hn0 hn, bitsMsb_eq_wireBits, hvalue]

/-- `exec_shiftBits_active` for operands that are natural numbers. -/
theorem exec_shiftBits_nat {s : State} (active : s.txn = .active) {n v : Nat} (hn : n ≤ 16) (hv : v < 65536) :
    exec (.shiftBits n v) s = .next (sendBits (wireBits n v) s) :=
  exec_shiftBits_active active (by omega) (by omega) (by omega) (by omega)

theorem sendBits_events (bits : Bits) (s : State) :
    (sendBits bits s).events = s.events ++ bits.flatMap cycleEvents := by
  simp [State.events, sendBits, foldl_bitCycle_log]

/-- Bits sent with `cs` low are appended to the open frame (R44). -/
theorem sendBits_openFrame (bits : Bits) {s : State} {open_ : Bits} (low : s.levels.cs = false)
    (h : s.openFrame = some open_) : (sendBits bits s).openFrame = some (open_ ++ bits) := by
  obtain ⟨held, hheld, rfl⟩ := Option.map_eq_some_iff.mp h
  simp [State.openFrame, sendBits, foldl_bitCycle bits s.wire held low hheld]

/-- Settles O14: the shift is the bits of its value sent, and what sending bits does to the wire is known. -/
theorem shiftBitsSendsTheLowBitsMsbFirst : Obligations.ShiftBitsSendsTheLowBitsMsbFirst := by
  intro s n v active hn hv
  refine ⟨_, exec_shiftBits_nat active hn hv, sendBits_events _ s, ?levels, foldl_bitCycle_rx _ s.wire, rfl,
    fun open_ low hopen => sendBits_openFrame _ low hopen⟩
  rw [State.levels, sendBits_levels]
  simp only [levelsSent, wireBits_eq_nil_iff, getLastD_wireBits]

/-- Settles O16: a width of 0 sends no bits. -/
theorem zeroLengthShiftChangesNothing : Obligations.ZeroLengthShiftChangesNothing :=
  fun _ _ active hv0 hv => exec_shiftBits_active active (by decide) (by decide) hv0 hv

/-- Settles O17: the concatenated field's bits are those of the two fields, and two runs of bits sent are one. -/
theorem successiveShiftsConcatenate : Obligations.SuccessiveShiftsConcatenate := by
  intro s n m a b active hnm ha hb
  have hfield : a * 2 ^ m + b < 2 ^ (n + m) :=
    calc a * 2 ^ m + b < (a + 1) * 2 ^ m := by rw [Nat.succ_mul]; omega
      _ ≤ 2 ^ n * 2 ^ m := Nat.mul_le_mul_right _ ha
      _ = 2 ^ (n + m) := (Nat.pow_add 2 n m).symm
  have fits : ∀ {k x : Nat}, k ≤ 16 → x < 2 ^ k → x < 65536 := fun hk hx =>
    hx.trans_le (Nat.pow_le_pow_right (by decide) hk)
  rw [exec_shiftBits_nat active (by omega) (fits (by omega) ha), andThen_next,
    exec_shiftBits_nat ((sendBits_txn _ s).trans active) (by omega) (fits (by omega) hb),
    exec_shiftBits_nat active hnm (fits hnm hfield), wireBits_add n m a hb, sendBits_append]

end Sys2Proof.Machine
end

section
/-! PROOFS. The driver's commands and `surface.init()` (41_controller_commands.md R71 to R76; 43_surface.md R85): the frames
they send, what those cost in pin events, and the dark panel after a shutdown. -/

namespace Sys2Proof.Machine

/-! ## Pin events of frames -/

@[simp] theorem cmdFrame_length (op : Nat) : (cmdFrame op).length = 12 := by simp [cmdFrame]

@[simp] theorem wramFrame_length (addr : Nat) (words : List Row) (residual : Bits) :
    (wramFrame addr words residual).length = 10 + 16 * words.length + residual.length := by
  rw [wramFrame, ← wordBits, List.length_append, List.length_append, List.length_append, wordBits_length, wireBits_length]
  rfl

theorem afterFrame_events_length (bits : Bits) (s : State) :
    (afterFrame bits s).events.length = s.events.length + (3 * bits.length + 2) := by
  rw [afterFrame_events, List.length_append, frameEvents_length]

theorem afterFrames_events_length (frames : List Bits) (s : State) :
    (afterFrames frames s).events.length =
      s.events.length + (frames.map fun bits => 3 * bits.length + 2).sum := by
  induction frames generalizing s with
  | nil => rfl
  | cons bits frames ih =>
    rw [afterFrames_cons, ih, afterFrame_events_length, List.map_cons, List.sum_cons, Nat.add_assoc]

@[simp] theorem setFrame_events (f : Vector Row 24) (s : State) : (setFrame f s).events = s.events := rfl

/-- The driver's initialization costs 1374 pin events: five commands of 38 and a RAM write of 1184 (R141). -/
theorem afterFrames_initFrames_events_length (s : State) :
    (afterFrames initFrames s).events.length = s.events.length + 1374 := by
  simp [afterFrames_events_length, initFrames]

/-! ## Commands of the host -/

theorem opcodeOf_natCast {op : Nat} (h : op < 256) : opcodeOf op = some (BitVec.ofNat 8 op) := by
  rw [opcodeOf, if_pos (by omega), Int.toNat_natCast]

theorem opcodeOf_eq_none {op : Int} (h : op < 0 ∨ 255 < op) : opcodeOf op = none := if_neg (by omega)

/-- `cmd(op)` of an 8-bit value is the command of that opcode (R71). -/
theorem exec_cmd_natCast {op : Nat} (h : op < 256) (s : State) :
    exec (.cmd op) s = sendCmd (.cmd op) (BitVec.ofNat 8 op) s := by
  simp only [exec, execCmd, opcodeOf_natCast h]

/-- Settles O19: an 8-bit operand is the opcode of the one command sent, and any other is none. -/
theorem cmdSendsOneCommandFrame : Obligations.CmdSendsOneCommandFrame := by
  intro s
  refine ⟨fun op hop idle => ⟨?sent, ?events⟩, fun op hop active => ?fault, fun op hop => ?refused⟩
  case sent => rw [exec_cmd_natCast hop, sendCmd_idle _ _ s idle, BitVec.toNat_ofNat, Nat.mod_eq_of_lt hop]
  case events => rw [afterFrame_events_length, cmdFrame_length]
  case fault => rw [exec_cmd_natCast hop, sendCmd_active _ _ s active]
  case refused => simp only [exec, execCmd, opcodeOf_eq_none hop]

/-- Settles O22: both calls are one command. -/
theorem shutdownCallsSendTheirCommand : Obligations.ShutdownCallsSendTheirCommand := fun s =>
  ⟨fun idle => ⟨sendCmd_idle .shutdownLeds 0x02 s idle, sendCmd_idle .shutdown 0x00 s idle⟩,
    fun active => ⟨sendCmd_active .shutdownLeds 0x02 s active, sendCmd_active .shutdown 0x00 s active⟩⟩

/-- Settles O23: the level is asked before any pin is written. -/
theorem setBrightnessSendsOnlyLevelsInRange : Obligations.SetBrightnessSendsOnlyLevelsInRange := fun s level =>
  ⟨driverBrightness_idle (.setBrightness level) level s,
    fun outside => driverBrightness_outside (.setBrightness level) level s (by omega)⟩

/-- Settles O24: construction sets the scope and the shadow frame and nothing else. -/
theorem constructionMakesNoPinEvent : Obligations.ConstructionMakesNoPinEvent := fun s =>
  ⟨{ setFrame (Vector.ofFn Config.shadowInit) s with txn := .idle }, rfl, rfl, fun y => Vector.getElem_ofFn y.isLt,
    rfl, rfl, rfl, rfl, rfl⟩

/-! ## Initialization -/

/-- A frame sent does not read the shadow frame. -/
theorem afterFrame_setFrame (bits : Bits) (f : Vector Row 24) (s : State) :
    afterFrame bits (setFrame f s) = setFrame f (afterFrame bits s) := rfl

theorem afterFrames_concat (frames : List Bits) (bits : Bits) (s : State) :
    afterFrames (frames ++ [bits]) s = afterFrame bits (afterFrames frames s) := List.foldl_concat ..

/-- `surface.init()` is the driver's initialization, then full brightness (R85). -/
theorem execSurfaceInit_idle (s : State) (h : s.txn = .idle) :
    execSurfaceInit s = .next (setFrame blank (afterFrames (initFrames ++ [cmdFrame 0xAF]) s)) := by
  have hidle : (setFrame blank (afterFrames initFrames s)).txn = .idle := (afterFrames_txn initFrames s).trans h
  calc execSurfaceInit s
      = driverBrightness .surfaceInit 15 (setFrame blank (afterFrames initFrames s)) := by
        rw [execSurfaceInit, driverInit_idle _ s h, andThen_next]
    _ = .next (afterFrame (cmdFrame 0xAF) (setFrame blank (afterFrames initFrames s))) :=
        driverBrightness_idle _ 15 _ hidle (by decide) (by decide)
    _ = .next (setFrame blank (afterFrames (initFrames ++ [cmdFrame 0xAF]) s)) := by
        rw [afterFrame_setFrame, afterFrames_concat]

theorem execSurfaceInit_active (s : State) (h : s.txn = .active) :
    execSurfaceInit s = .fault (.nestedTransaction .surfaceInit) := by
  rw [execSurfaceInit, driverInit_active _ s h, andThen_fault]

/-- Settles O21: both calls send `initFrames`, and `surface.init()` one command more. -/
theorem initializationSendsItsFrames : Obligations.InitializationSendsItsFrames := by
  intro s
  refine ⟨fun idle => ⟨⟨_, driverInit_idle .initDriver s idle, rfl, ?initEvents⟩,
    ⟨_, execSurfaceInit_idle s idle, rfl, ?surfaceEvents⟩⟩,
    fun active => ⟨driverInit_active .initDriver s active, execSurfaceInit_active s active⟩⟩
  case initEvents => rw [setFrame_events, afterFrames_initFrames_events_length]
  case surfaceEvents =>
    rw [setFrame_events, afterFrames_concat, afterFrame_events_length, afterFrames_initFrames_events_length,
      cmdFrame_length]

/-! ## The panel after a shutdown -/

/-- A command sent with `cs` high and the boot requirement met reaches a defined receiver as its opcode (R103, R112). -/
theorem rxAfterFrame_cmdFrame {s : State} {d : Device} (high : s.levels.cs = true) (boot : bootHolds s = true)
    (defined : s.rx = .defined d) (op : BitVec 8) :
    rxAfterFrame (cmdFrame op.toNat) s = .defined (rxCommand op d) := by
  have hheld : heldBits s = [] := if_pos high
  calc rxAfterFrame (cmdFrame op.toNat) s
      = s.rx.receive (heldBits s ++ cmdFrame op.toNat) := if_pos boot
    _ = rxFrame (cmdFrame op.toNat) d := by rw [hheld, defined]; rfl
    _ = .defined (rxCommand op d) := rxFrame_cmdFrame op d

/-- A device known to be disabled, or to have its LEDs off, shows nothing (R115). -/
theorem lit_eq_false_of_off {d : Device} (h : d.sysEn = .known false ∨ d.ledOn = .known false) (x : Fin 16) (y : Fin 24) :
    (Receiver.defined d).lit x y = .known false := if_pos h

/-- Settles O46: SYS_DIS makes the system known to be disabled, and LED_OFF on an enabled device the LEDs known to be
off. -/
theorem panelIsDarkAfterShutdown : Obligations.PanelIsDarkAfterShutdown := by
  intro s d idle high boot defined
  refine ⟨⟨_, sendCmd_idle .shutdown 0x00 s idle, fun x y => ?system⟩,
    fun enabled => ⟨_, sendCmd_idle .shutdownLeds 0x02 s idle, fun x y => ?leds⟩⟩
  case system =>
    rw [State.rx, afterFrame_rx, rxAfterFrame_cmdFrame high boot defined]
    exact lit_eq_false_of_off (.inl rfl) x y
  case leds =>
    have hoff : (rxCommand 0x02 d).ledOn = .known false := if_pos enabled
    rw [State.rx, afterFrame_rx, rxAfterFrame_cmdFrame high boot defined]
    exact lit_eq_false_of_off (.inr hoff) x y

end Sys2Proof.Machine
end

section
/-! PROOFS. The shadow frame and its RAM writes (42_controller_ram.md R78 to R84; 43_surface.md R88; 45_wire_frames.md
R113, R115): single pixels, the frame that `clear`, `fill` and `flush` send, and the image it makes on the panel. -/

namespace Sys2Proof.Machine

/-! ## Single pixels -/

/-- Settles O27: a set pixel is an OR with the named coordinates, and out of range the update is no update. -/
theorem setPixelLightsOnePixel : Obligations.SetPixelLightsOnePixel := by
  intro s a b
  refine ⟨setPixelOp a b s, rfl, onlyFrame_updatePixel _ a b s, fun x y => ?_, updatePixel_outside _ a b s⟩
  rw [pixel_setPixelOp]
  by_cases hxy : a = x ∧ b = y
  · rw [if_pos hxy, decide_eq_true hxy, Bool.or_true]
  · rw [if_neg hxy, decide_eq_false hxy, Bool.or_false]

/-- Settles O28: a cleared pixel is masked at the named coordinates, and out of range the update is no update. -/
theorem clearPixelDarkensOnePixel : Obligations.ClearPixelDarkensOnePixel := by
  intro s a b
  refine ⟨clearPixelOp a b s, rfl, onlyFrame_updatePixel _ a b s, fun x y => ?_, updatePixel_outside _ a b s⟩
  rw [pixel_clearPixelOp]
  by_cases hxy : a = x ∧ b = y
  · rw [if_pos hxy, decide_eq_true hxy, Bool.not_true, Bool.and_false]
  · rw [if_neg hxy, decide_eq_false hxy, Bool.not_false, Bool.and_true]

/-! ## A frame from a caller's buffer -/

theorem frameOf_toList (f : Vector Row 24) : frameOf f.toList = some f := dif_pos f.length_toList

theorem frameOf_eq_none {w : List Row} (h : w.length ≠ 24) : frameOf w = none := dif_neg h

/-- Settles O29: a buffer of 24 words is the list of a shadow frame, and any other is none. -/
theorem replaceFrameTakesExactly24Words : Obligations.ReplaceFrameTakesExactly24Words := by
  intro s w
  refine ⟨fun h => ?replaced, fun h => ?refused⟩
  case replaced =>
    obtain ⟨f, rfl⟩ : ∃ f : Vector Row 24, f.toList = w := ⟨⟨w.toArray, h⟩, rfl⟩
    refine ⟨setFrame f s, ?_, onlyFrame_setFrame f s, rfl⟩
    simp only [exec, execReplaceFrame, frameOf_toList]
  case refused => simp only [exec, execReplaceFrame, frameOf_eq_none h]

/-! ## RAM writes of the whole frame -/

/-- A frame of all 24 rows costs 1184 pin events, whatever becomes of the shadow frame (R141). -/
theorem wramFrame_rows_events_length (rows after : Vector Row 24) (s : State) :
    (setFrame after (afterFrame (wramFrame 0 rows.toList []) s)).events.length = s.events.length + 1184 := by
  rw [setFrame_events, afterFrame_events_length, wramFrame_length, Vector.length_toList, List.length_nil]

/-- Settles O25: both calls are the RAM write of all 24 rows, each with its own word. -/
theorem clearAndFillSendAndSetEveryRow : Obligations.ClearAndFillSendAndSetEveryRow := fun s =>
  ⟨fun idle => ⟨⟨_, driverClear_idle .clear s idle, rfl, wramFrame_rows_events_length blank blank s⟩,
      ⟨_, driverFill_idle .fill s idle, rfl, wramFrame_rows_events_length allOnes allOnes s⟩⟩,
    fun active => ⟨ramWriteOp_active .clear _ _ s active, ramWriteOp_active .fill _ _ s active⟩⟩

/-- Settles O26: both calls are the RAM write of all 24 rows as they stand, and only a fault tells which was called. -/
theorem flushSendsTheFrameAndZeroesIt : Obligations.FlushSendsTheFrameAndZeroesIt := fun s =>
  ⟨fun idle => ⟨⟨_, driverFlush_idle .flush s idle, rfl, wramFrame_rows_events_length s.frame blank s⟩,
      (driverFlush_idle .surfaceFlush s idle).trans (driverFlush_idle .flush s idle).symm⟩,
    fun active => ⟨ramWriteOp_active .flush _ _ s active, ramWriteOp_active .surfaceFlush _ _ s active⟩⟩

/-! ## The frame at the receiver -/

/-- A frame sent with `cs` high and the boot requirement met is read whole by a defined receiver (R103, R133). -/
theorem rxAfterFrame_eq_rxFrame {s : State} {d : Device} (high : s.levels.cs = true) (boot : bootHolds s = true)
    (defined : s.rx = .defined d) (bits : Bits) : rxAfterFrame bits s = rxFrame bits d := by
  have hheld : heldBits s = [] := if_pos high
  rw [rxAfterFrame, if_pos boot, hheld, defined, List.nil_append, Receiver.receive]

/-- A RAM write of all 24 rows leaves each row where it belongs, as the guard lets it through (R113). -/
theorem rxWrite_rows (rows : Vector Row 24) (d : Device) :
    rxWrite 0 rows.toList [] d = .defined { d with ram := rows.map (guarded d), ptr := none } := by
  obtain ⟨ram, hwords, hram⟩ := rxWords_ok rows.toList 0 { d with ptr := some 0 } rfl (by simp)
  have hrows : ram = rows.map (guarded d) := by
    apply Vector.ext
    intro y hy
    have hrow := hram ⟨y, hy⟩
    rw [dif_pos (by simpa using hy)] at hrow
    simpa [guarded] using hrow
  have hzero : (0 : BitVec 7).toNat = 0 := rfl
  simp only [rxWrite, hzero, hwords, hrows, rxPartial, if_true]

/-- A device in the display configuration shows the rows its RAM is known to hold (R115). -/
theorem lit_eq_ram {d : Device} (enabled : d.sysEn = .known true) (leds : d.ledOn = .known true)
    (steady : d.blink = .known .off) (master : d.clockMode = .known .master) (com : d.comOption = .known 0x24)
    (x : Fin 16) (y : Fin 24) {w : Row} (hrow : d.ram[y] = .known w) :
    (Receiver.defined d).lit x y = .known (w.getLsbD x) := by
  simp [Receiver.lit, enabled, leds, steady, master, com, hrow]

/-- Settles O45: the enabled device takes each row sent as known, and its panel shows them. -/
theorem flushShowsTheShadowFrame : Obligations.FlushShowsTheShadowFrame := by
  intro s d idle high boot defined enabled leds steady master com
  refine ⟨_, driverFlush_idle .flush s idle, fun x y => ?_⟩
  have hrx : rxAfterFrame (wramFrame 0 s.frame.toList []) s =
      .defined { d with ram := s.frame.map (guarded d), ptr := none } :=
    calc rxAfterFrame (wramFrame 0 s.frame.toList []) s
        = rxFrame (wramFrame 0 s.frame.toList []) d := rxAfterFrame_eq_rxFrame high boot defined _
      _ = rxWrite 0 s.frame.toList [] d := rxFrame_wramFrame 0 s.frame.toList [] (by decide) d
      _ = .defined { d with ram := s.frame.map (guarded d), ptr := none } := rxWrite_rows s.frame d
  have hrow : (s.frame.map (guarded d))[y] = .known (memRead y s) := by simp [memRead, guarded, enabled]
  rw [State.rx, setFrame_wire, afterFrame_rx, hrx]
  exact lit_eq_ram (d := { d with ram := s.frame.map (guarded d), ptr := none }) enabled leds steady master com x y hrow

end Sys2Proof.Machine
end

section
/-! PROOFS. The drawing surface (43_surface.md R87, R89): a surface write as the driver's pixel call, and the clearing of
the shadow frame. -/

namespace Sys2Proof.Machine

/-! ## Surface writes -/

/-- Settles O30, by the two kinds of colour: `off` leaves the state as it is, and any other is the driver's pixel call. -/
theorem surfaceWriteSetsUnlessOff : Obligations.SurfaceWriteSetsUnlessOff := by
  intro s p c
  cases c with
  | off => exact ⟨fun hlit => absurd rfl hlit, fun _ => rfl, ⟨s, rfl⟩⟩
  | lit code => exact ⟨fun _ => rfl, fun hoff => Color.noConfusion hoff, ⟨setPixelOp p.x p.y s, rfl⟩⟩

/-! ## Clearing the shadow frame -/

/-- Rows written one after another are one new shadow frame (R30). -/
theorem foldl_memWrite (ys : List (Fin 24)) (v : Row) (s : State) :
    ys.foldl (fun s y => memWrite y v s) s =
      setFrame (ys.foldl (fun (f : Vector Row 24) (y : Fin 24) => f.set y v) s.frame) s :=
  List.foldl_hom (setFrame · s) (fun _ _ => rfl)

/-- `surface.clear()` is the blank shadow frame, whatever the scope (R89). -/
theorem exec_surfaceClear (s : State) : exec .surfaceClear s = .next (setFrame blank s) := by
  rw [exec, execSurfaceClear, foldl_memWrite, foldl_set_all _ List.mem_finRange, blank]

theorem memRead_setFrame_blank (y : Fin 24) (s : State) : memRead y (setFrame blank s) = 0x0000 :=
  Vector.getElem_replicate y.isLt

/-- Settles O31: the call is the blank shadow frame, and each of its rows reads as zero. -/
theorem surfaceClearZeroesTheFrameAlone : Obligations.SurfaceClearZeroesTheFrameAlone := fun s =>
  ⟨setFrame blank s, exec_surfaceClear s, onlyFrame_setFrame blank s, fun y => memRead_setFrame_blank y s⟩

end Sys2Proof.Machine
end

section
/-! PROOFS. The drawables' calls (44_rasterizers.md R91, R92, R94 to R100, R102): each accepted draw call is the plotting
of a list of points, and only which points are in the list is seen in the shadow frame. -/

namespace Sys2Proof.Machine

/-! ## Accepted drawables -/

theorem lineShape_wf_iff (d : LineShape) :
    d.wf = true ↔ d.location.x ≤ d.endPt.x ∧ d.location.y ≤ d.endPt.y := by
  simp [LineShape.wf, LineShape.size, Point.nonNegative]

theorem rectShape_wf_iff (d : RectShape) :
    d.wf = true ↔ d.location.x ≤ d.endPt.x ∧ d.location.y ≤ d.endPt.y := by
  simp [RectShape.wf, RectShape.size, Point.nonNegative]

theorem circleShape_wf_iff (d : CircleShape) : d.wf = true ↔ 0 ≤ d.radius := decide_eq_true_iff

theorem withDrawable_of_wf {d : Drawable} (accepted : d.wf = true) (r : Result) : withDrawable d r = r := if_pos accepted

theorem illFormedIn_eq_none {c : DrawableCall} (accepted : c.wf = true) : illFormedIn c = none := by
  cases c with
  | update d => exact if_pos accepted
  | interact d other =>
    obtain ⟨hd, hother⟩ : d.wf = true ∧ other.wf = true := Bool.and_eq_true_iff.mp accepted
    rw [illFormedIn, if_pos hd, if_pos hother]

/-- Settles O39: no drawable of the call is ill-formed, and the call then does nothing. -/
theorem updateAndInteractDoNothing : Obligations.UpdateAndInteractDoNothing := by
  intro s c accepted
  simp only [exec, execDrawableCall, illFormedIn_eq_none accepted]

/-! ## Draw calls as plotted points -/

/-- A draw call on an accepted drawable plots its points (R100). -/
theorem withDrawable_drawOn {d : Drawable} (accepted : d.wf = true) (surface : SurfaceRef) (pts : List Point)
    (s : State) : withDrawable d (.next (drawOn surface pts s)) = .next (plotAll pts s) := by
  rw [withDrawable_of_wf accepted, drawOn_eq]

theorem exec_lineDraw {d : LineShape} (accepted : d.wf = true) (s : State) :
    exec (.lineDraw d) s = .next (plotAll (linePoints d.location d.endPt) s) :=
  withDrawable_drawOn (d := .line d) accepted d.surface _ s

theorem exec_rectDraw {d : RectShape} (accepted : d.wf = true) (s : State) :
    exec (.rectDraw d) s = .next (plotAll (rectEdgePoints d) s) :=
  withDrawable_drawOn (d := .rect d false) accepted d.surface _ s

theorem exec_rectFill {d : RectShape} (accepted : d.wf = true) (s : State) :
    exec (.rectFill d) s = .next (plotAll (rectFillPoints d) s) :=
  withDrawable_drawOn (d := .rect d true) accepted d.surface _ s

theorem exec_circleDraw {d : CircleShape} (accepted : d.wf = true) (s : State) :
    exec (.circleDraw d) s = .next (plotAll (circlePoints (circleCentre d) d.radius) s) :=
  withDrawable_drawOn (d := .circle d) accepted d.surface _ s

/-- Settles O32: each draw call plots its rasterizer's points, and plotting sets exactly those on the panel. -/
theorem drawablesSetExactlyTheirOnPanelPoints : Obligations.DrawablesSetExactlyTheirOnPanelPoints := fun s =>
  ⟨fun _ accepted => ⟨_, exec_lineDraw accepted s, draws_plotAll _ s⟩,
    fun _ accepted => ⟨_, exec_rectDraw accepted s, draws_plotAll _ s⟩,
    fun _ accepted => ⟨_, exec_rectFill accepted s, draws_plotAll _ s⟩,
    fun _ accepted => ⟨_, exec_circleDraw accepted s, draws_plotAll _ s⟩⟩

/-- Points plotted are drawn under any other description of them. -/
theorem draws_plotAll_of_mem_iff {pts : List Point} {P : Point → Prop} (h : ∀ p, p ∈ pts ↔ P p) (s : State) :
    Draws P s (plotAll pts s) := by
  obtain rfl : (· ∈ pts) = P := funext fun p => propext (h p)
  exact draws_plotAll pts s

/-! ## The order of drawing -/

theorem plotAll_append (ps qs : List Point) (s : State) : plotAll (ps ++ qs) s = plotAll qs (plotAll ps s) :=
  List.foldl_append

/-- Neither the order nor the repetition of the points plotted is seen (R100). -/
theorem plotAll_eq_of_mem_iff {ps qs : List Point} (h : ∀ p, p ∈ ps ↔ p ∈ qs) (s : State) :
    plotAll ps s = plotAll qs s := by
  obtain ⟨hframe, hpixel⟩ := draws_plotAll_of_mem_iff h s
  obtain ⟨kframe, kpixel⟩ := draws_plotAll qs s
  exact eq_of_pixels hframe kframe fun x y => Bool.eq_iff_iff.mpr ((hpixel x y).trans (kpixel x y).symm)

/-- A draw call that is not refused plots the same points from every state. -/
theorem exists_exec_eq_plotAll {i : Instr}
    (draw : ∃ a, i = .lineDraw a ∨ (∃ b, i = .rectDraw b) ∨ (∃ b, i = .rectFill b) ∨ ∃ b, i = .circleDraw b)
    (accepted : ¬ OperandRefused i) : ∃ pts, ∀ s, exec i s = .next (plotAll pts s) := by
  obtain ⟨d, rfl | ⟨d, rfl⟩ | ⟨d, rfl⟩ | ⟨d, rfl⟩⟩ := draw
  · exact ⟨_, exec_lineDraw ((lineShape_wf_iff d).mpr (not_not.mp accepted))⟩
  · exact ⟨_, exec_rectDraw ((rectShape_wf_iff d).mpr (not_not.mp accepted))⟩
  · exact ⟨_, exec_rectFill ((rectShape_wf_iff d).mpr (not_not.mp accepted))⟩
  · exact ⟨_, exec_circleDraw ((circleShape_wf_iff d).mpr (not_not.mp accepted))⟩

/-- Settles O38: both orders plot the points of both drawables. -/
theorem drawingOrderIsInvisible : Obligations.DrawingOrderIsInvisible := by
  intro s d e drawD drawE acceptedD acceptedE
  obtain ⟨ps, hd⟩ := exists_exec_eq_plotAll drawD acceptedD
  obtain ⟨qs, he⟩ := exists_exec_eq_plotAll drawE acceptedE
  have hswap : plotAll ps (plotAll qs s) = plotAll qs (plotAll ps s) := by
    rw [← plotAll_append, ← plotAll_append]
    exact plotAll_eq_of_mem_iff (fun p => by rw [List.mem_append, List.mem_append, or_comm]) s
  refine ⟨plotAll qs (plotAll ps s), ?_, ?_⟩
  · rw [hd, andThen_next, he]
  · rw [he, andThen_next, hd, hswap]

end Sys2Proof.Machine
end

section
/-! PROOFS. The lines and the rectangles made of them (44_rasterizers.md R93, R95, R96, R101): what `LineRun` says of a
line's coordinates, the straight lines as sets of points, and the boundary and the inside of a rectangle. -/

namespace Sys2Proof.Machine

/-! ## The coordinates of a run -/

/-- A coordinate that moves by at most one between neighbours (R101 law 4). -/
def Steady (coord : Point → Int) : Prop := ∀ q r, Adjacent q r → (coord q - coord r).natAbs ≤ 1

theorem steady_x : Steady Point.x := fun _ _ adjacent => adjacent.1

theorem steady_y : Steady Point.y := fun _ _ adjacent => adjacent.2.1

/-- Along a run with no step to spare in a coordinate, that coordinate counts up or down to its end (R101 law 5). -/
theorem LineRun.map_eq_range {c : LineSetup} {n i j : Nat} {p : Point} {ps : List Point} (run : LineRun c n i j p ps)
    {coord : Point → Int} (steady : Steady coord) {sign : Int} (hsign : sign = 1 ∨ sign = -1)
    (far : coord ⟨c.x1, c.y1⟩ = coord p + n * sign) :
    ps.map coord = (List.range (n + 1)).map fun (k : Nat) => coord p + k * sign := by
  refine steady_walk _ _ sign n hsign ?chain ?head ?last ?length
  case chain => exact List.isChain_map_of_isChain coord (fun q r => steady q r) run.chain
  case head => rw [List.head?_map, run.head, Option.map_some]
  case last => rw [List.getLast?_map, run.last, Option.map_some, far]
  case length => rw [List.length_map, run.length]

/-- The way between two integers is their distance in one of the two directions. -/
theorem exists_sign (a b : Int) : ∃ sign : Int, (sign = 1 ∨ sign = -1) ∧ b = a + (b - a).natAbs * sign := by
  rcases le_total a b with h | h
  · exact ⟨1, .inl rfl, by omega⟩
  · exact ⟨-1, .inr rfl, by omega⟩

/-- Counting from `a` to `b` meets each integer between them once. -/
theorem count_range_between {a b sign x : Int} (hsign : sign = 1 ∨ sign = -1) (hb : b = a + (b - a).natAbs * sign)
    (hmin : min a b ≤ x) (hmax : x ≤ max a b) :
    ((List.range ((b - a).natAbs + 1)).map fun (k : Nat) => a + k * sign).count x = 1 := by
  refine count_steady_walk a sign _ hsign x ?_ ?_ <;> rcases hsign with rfl | rfl <;> omega

/-! ## The laws of all lines -/

theorem linePoints_head (p0 p1 : Point) : (linePoints p0 p1).head? = some p0 := (linePoints_run p0 p1).head

theorem linePoints_last (p0 p1 : Point) : (linePoints p0 p1).getLast? = some p1 := (linePoints_run p0 p1).last

theorem linePoints_length (p0 p1 : Point) : (linePoints p0 p1).length = lineSteps p0 p1 + 1 :=
  (linePoints_run p0 p1).length

theorem linePoints_chain (p0 p1 : Point) : (linePoints p0 p1).IsChain Adjacent := (linePoints_run p0 p1).chain

/-- A coordinate at most as many steps off as the far endpoint lies between the two. -/
theorem between_of_steps {a b x : Int} {k : Nat} (hk : k ≤ (b - a).natAbs) (hx : x = a + k * if a < b then 1 else -1) :
    min a b ≤ x ∧ x ≤ max a b := by
  split at hx <;> omega

theorem mem_linePoints_box {p0 p1 p : Point} (h : p ∈ linePoints p0 p1) :
    (min p0.x p1.x ≤ p.x ∧ p.x ≤ max p0.x p1.x) ∧ min p0.y p1.y ≤ p.y ∧ p.y ≤ max p0.y p1.y := by
  obtain ⟨a, b, ha, hb, hx, hy⟩ := (linePoints_run p0 p1).box p h
  exact ⟨between_of_steps ha hx, between_of_steps hb hy⟩

/-- The major axis has no step to spare, so its coordinate takes each value between the endpoints once (R101 law 5). -/
theorem count_linePoints {p0 p1 : Point} {coord : Point → Int} (steady : Steady coord)
    (major : lineSteps p0 p1 = (coord p1 - coord p0).natAbs) {v : Int}
    (hmin : min (coord p0) (coord p1) ≤ v) (hmax : v ≤ max (coord p0) (coord p1)) :
    ((linePoints p0 p1).map coord).count v = 1 := by
  obtain ⟨sign, hsign, far⟩ := exists_sign (coord p0) (coord p1)
  have run := linePoints_run p0 p1
  rw [major] at run
  rw [run.map_eq_range steady hsign far]
  exact count_range_between hsign far hmin hmax

theorem exists_mem_linePoints {p0 p1 : Point} {coord : Point → Int} (steady : Steady coord)
    (major : lineSteps p0 p1 = (coord p1 - coord p0).natAbs) {v : Int}
    (hmin : min (coord p0) (coord p1) ≤ v) (hmax : v ≤ max (coord p0) (coord p1)) :
    ∃ q ∈ linePoints p0 p1, coord q = v := by
  have hcount := count_linePoints steady major hmin hmax
  exact List.mem_map.mp (List.count_pos_iff.mp (hcount ▸ Nat.one_pos))

/-- Settles O33: the laws are the parts of `linePoints_run`, and the major axis has no step to spare. -/
theorem linesObeyTheLineLaws : Obligations.LinesObeyTheLineLaws := by
  intro p0 p1
  refine ⟨linePoints_head p0 p1, linePoints_last p0 p1, linePoints_length p0 p1, fun p hp => ?box,
    linePoints_chain p0 p1, fun major _ => count_linePoints steady_x (Nat.max_eq_left major),
    fun major _ => count_linePoints steady_y (Nat.max_eq_right major)⟩
  case box =>
    obtain ⟨⟨hx0, hx1⟩, hy⟩ := mem_linePoints_box hp
    exact ⟨hx0, hx1, hy⟩

/-! ## Straight lines -/

theorem eq_of_coordinates {p q : Point} (hx : p.x = q.x) (hy : p.y = q.y) : p = q := by
  cases p
  cases q
  exact congrArg₂ Point.mk hx hy

/-- A horizontal line is the points of its segment (R101 law 2). -/
theorem mem_linePoints_horizontal (a b y : Int) (p : Point) :
    p ∈ linePoints ⟨a, y⟩ ⟨b, y⟩ ↔ p.y = y ∧ min a b ≤ p.x ∧ p.x ≤ max a b := by
  have onRow : ∀ q ∈ linePoints ⟨a, y⟩ ⟨b, y⟩, q.y = y ∧ min a b ≤ q.x ∧ q.x ≤ max a b := fun q hq => by
    obtain ⟨hx, hy⟩ := mem_linePoints_box hq
    exact ⟨by simpa using le_antisymm hy.2 hy.1, hx⟩
  refine ⟨onRow p, fun ⟨hy, hmin, hmax⟩ => ?_⟩
  obtain ⟨q, hq, hqx⟩ := exists_mem_linePoints (p0 := ⟨a, y⟩) (p1 := ⟨b, y⟩) steady_x (by simp [lineSteps]) hmin hmax
  obtain rfl : q = p := eq_of_coordinates hqx ((onRow q hq).1.trans hy.symm)
  exact hq

/-- A vertical line is the points of its segment (R101 law 2). -/
theorem mem_linePoints_vertical (a b x : Int) (p : Point) :
    p ∈ linePoints ⟨x, a⟩ ⟨x, b⟩ ↔ p.x = x ∧ min a b ≤ p.y ∧ p.y ≤ max a b := by
  have onColumn : ∀ q ∈ linePoints ⟨x, a⟩ ⟨x, b⟩, q.x = x ∧ min a b ≤ q.y ∧ q.y ≤ max a b := fun q hq => by
    obtain ⟨hx, hy⟩ := mem_linePoints_box hq
    exact ⟨by simpa using le_antisymm hx.2 hx.1, hy⟩
  refine ⟨onColumn p, fun ⟨hx, hmin, hmax⟩ => ?_⟩
  obtain ⟨q, hq, hqy⟩ := exists_mem_linePoints (p0 := ⟨x, a⟩) (p1 := ⟨x, b⟩) steady_y (by simp [lineSteps]) hmin hmax
  obtain rfl : q = p := eq_of_coordinates ((onColumn q hq).1.trans hx.symm) hqy
  exact hq

/-- A list of points is told by its two lists of coordinates. -/
theorem zipWith_coordinates (ps : List Point) : List.zipWith Point.mk (ps.map Point.x) (ps.map Point.y) = ps := by
  rw [List.zipWith_map, List.zipWith_self]
  exact List.map_id ps

/-- A 45° line is its diagonal points, in order: neither coordinate has a step to spare (R101 law 6). -/
theorem linePoints_diagonal (p0 : Point) (n : Nat) {sx sy : Int} (hsx : sx = 1 ∨ sx = -1) (hsy : sy = 1 ∨ sy = -1) :
    linePoints p0 ⟨p0.x + n * sx, p0.y + n * sy⟩ =
      (List.range (n + 1)).map fun (i : Nat) => ⟨p0.x + i * sx, p0.y + i * sy⟩ := by
  have run := linePoints_run p0 ⟨p0.x + n * sx, p0.y + n * sy⟩
  have hsteps : lineSteps p0 ⟨p0.x + n * sx, p0.y + n * sy⟩ = n := by
    simp only [lineSteps]
    rcases hsx with rfl | rfl <;> rcases hsy with rfl | rfl <;> omega
  rw [hsteps] at run
  rw [← zipWith_coordinates (linePoints _ _), run.map_eq_range steady_x hsx rfl, run.map_eq_range steady_y hsy rfl,
    List.zipWith_map, List.zipWith_self]

/-- Settles O34: the straight lines as sets of points, and the diagonal as a list. -/
theorem straightLinesAreExact : Obligations.StraightLinesAreExact :=
  ⟨mem_linePoints_horizontal, mem_linePoints_vertical, fun p0 n _ _ hsx hsy => linePoints_diagonal p0 n hsx hsy⟩

/-! ## Rectangles -/

/-- The four edges are the boundary (R95). -/
theorem mem_rectEdgePoints {d : RectShape} (hx : d.location.x ≤ d.endPt.x) (hy : d.location.y ≤ d.endPt.y) (p : Point) :
    p ∈ rectEdgePoints d ↔
      d.location.x ≤ p.x ∧ p.x ≤ d.endPt.x ∧ d.location.y ≤ p.y ∧ p.y ≤ d.endPt.y ∧
        (p.x = d.location.x ∨ p.x = d.endPt.x ∨ p.y = d.location.y ∨ p.y = d.endPt.y) := by
  simp only [rectEdgePoints, List.mem_append, mem_linePoints_horizontal, mem_linePoints_vertical, min_eq_left hx,
    max_eq_right hx, min_eq_left hy, max_eq_right hy]
  omega

/-- Settles O35: the call plots the four edges, which are the boundary. -/
theorem unfilledRectangleDrawsItsBoundary : Obligations.UnfilledRectangleDrawsItsBoundary := fun s d hx hy =>
  ⟨_, exec_rectDraw ((rectShape_wf_iff d).mpr ⟨hx, hy⟩) s, draws_plotAll_of_mem_iff (mem_rectEdgePoints hx hy) s⟩

/-- The rows of a filled rectangle are the inclusive rectangle (R96). -/
theorem mem_rectFillPoints (d : RectShape) (p : Point) :
    p ∈ rectFillPoints d ↔
      d.location.x ≤ p.x ∧ p.x ≤ d.endPt.x ∧ d.location.y ≤ p.y ∧ p.y ≤ d.endPt.y := by
  simp only [rectFillPoints, List.mem_flatMap, List.mem_map, mem_intRange]
  constructor
  · rintro ⟨y, ⟨hy0, hy1⟩, x, ⟨hx0, hx1⟩, rfl⟩
    exact ⟨hx0, hx1, hy0, hy1⟩
  · rintro ⟨hx0, hx1, hy0, hy1⟩
    exact ⟨p.y, ⟨hy0, hy1⟩, p.x, ⟨hx0, hx1⟩, rfl⟩

/-- Settles O36: the call plots the rows of the inclusive rectangle. -/
theorem filledRectangleDrawsItsInside : Obligations.FilledRectangleDrawsItsInside := fun s d hx hy =>
  ⟨_, exec_rectFill ((rectShape_wf_iff d).mpr ⟨hx, hy⟩) s, draws_plotAll_of_mem_iff (mem_rectFillPoints d) s⟩

end Sys2Proof.Machine
end

section
/-! PROOFS. The circles (44_rasterizers.md R97, R98; D18): the points plotted are the offsets whose greater length is the
whole number nearest to √(r² − l²), l the lesser, and what that makes of the outline. -/

namespace Sys2Proof.Machine

/-! ## The arc of one octant -/

theorem onArc_top {r : Int} (hr : 0 < r) : OnArc r 0 r := ⟨by linarith, by linarith⟩

theorem OnArc.le_radius {r a b : Int} (h : OnArc r a b) (hr : 0 ≤ r) : b ≤ r := by
  obtain ⟨hlow, -⟩ := h
  by_contra hb
  nlinarith [mul_self_nonneg a]

theorem not_onArc_origin {r : Int} (hr : 0 < r) : ¬ OnArc r 0 0 := by
  rintro ⟨-, hhigh⟩
  nlinarith

/-- A positive integer has a whole number nearest to its square root. -/
theorem exists_nearest_sqrt {n : Int} (hn : 0 < n) : ∃ b : Int, 0 ≤ b ∧ b * b - b < n ∧ n ≤ b * b + b := by
  lift n to Nat using hn.le
  have hlow : ((Nat.sqrt n : Int)) * Nat.sqrt n ≤ n := by exact_mod_cast Nat.sqrt_le n
  have hhigh : (n : Int) < (Nat.sqrt n + 1) * (Nat.sqrt n + 1) := by exact_mod_cast Nat.lt_succ_sqrt n
  by_cases h : (n : Int) ≤ Nat.sqrt n * Nat.sqrt n + Nat.sqrt n
  · exact ⟨Nat.sqrt n, by omega, by nlinarith, h⟩
  · exact ⟨Nat.sqrt n + 1, by omega, by linarith, by linarith⟩

/-- Each length up to the radius is one of the two of a point on the arc. -/
theorem exists_onArc {r a : Int} (ha : 0 ≤ a) (har : a ≤ r) (hr : 0 < r) :
    ∃ b, 0 ≤ b ∧ OnArc r (min a b) (max a b) := by
  rcases har.eq_or_lt with rfl | hlt
  · exact ⟨0, le_rfl, by rw [min_eq_right ha, max_eq_left ha]; exact onArc_top hr⟩
  obtain ⟨b, hb, hlow, hhigh⟩ := exists_nearest_sqrt (n := r * r - a * a) (by nlinarith)
  refine ⟨b, hb, ?_⟩
  rcases le_total a b with hab | hba
  · rw [min_eq_left hab, max_eq_right hab]
    exact ⟨hlow, hhigh⟩
  · rw [min_eq_right hba, max_eq_left hba]
    exact ⟨by linarith, by linarith⟩

/-! ## The outline -/

/-- The four axis points are the octant images of the arc's top (R97). -/
theorem mem_axisPoints_iff (c p : Point) (r : Int) :
    p ∈ [(⟨c.x, c.y + r⟩ : Point), ⟨c.x, c.y - r⟩, ⟨c.x + r, c.y⟩, ⟨c.x - r, c.y⟩] ↔ p ∈ circleOctets c 0 r := by
  simp only [circleOctets, List.mem_cons, List.not_mem_nil, or_false, add_zero, sub_zero]
  tauto

/-- The points plotted are the octant images of the arc (R97). -/
theorem mem_circlePoints_iff_exists (c p : Point) {r : Int} (hr : 0 < r) :
    p ∈ circlePoints c r ↔ ∃ a b, 0 ≤ a ∧ a ≤ b ∧ OnArc r a b ∧ p ∈ circleOctets c a b := by
  obtain ⟨sound, complete⟩ := mem_circleLoop c r r.toNat 0 r (1 - r) le_rfl hr.le (by omega) (by ring) (onArc_top hr) p
  rw [circlePoints, List.mem_append, mem_axisPoints_iff]
  constructor
  · rintro (haxis | hloop)
    · exact ⟨0, r, le_rfl, hr.le, onArc_top hr, haxis⟩
    · exact sound hloop
  · rintro ⟨a, b, ha, hab, harc, hp⟩
    rcases ha.eq_or_lt with rfl | hpos
    · exact .inl (harc.unique hab (onArc_top hr) hr.le ▸ hp)
    · exact .inr (complete a b hpos hab harc hp)

/-- The outline by offsets: the lesser and the greater length are a point of the arc (R97, D18). -/
theorem mem_circlePoints_iff (c : Point) {r : Int} (hr : 0 < r) (u v : Int) :
    ⟨c.x + u, c.y + v⟩ ∈ circlePoints c r ↔ OnArc r (min |u| |v|) (max |u| |v|) := by
  rw [mem_circlePoints_iff_exists c _ hr]
  constructor
  · rintro ⟨a, b, ha, hab, harc, hp⟩
    obtain ⟨rfl, rfl⟩ := (mem_circleOctets c a b u v ha hab).mp hp
    exact harc
  · intro harc
    have ha : 0 ≤ min |u| |v| := le_min (abs_nonneg u) (abs_nonneg v)
    exact ⟨_, _, ha, min_le_max, harc, (mem_circleOctets c _ _ u v ha min_le_max).mpr ⟨rfl, rfl⟩⟩

/-- A circle of radius 0 is its centre (R97). -/
theorem mem_circlePoints_zero (c p : Point) : p ∈ circlePoints c 0 ↔ p = c := by
  simp [circlePoints, circleLoop]

theorem centre_offset_mem_circlePoints_zero (c : Point) (u v : Int) :
    ⟨c.x + u, c.y + v⟩ ∈ circlePoints c 0 ↔ u = 0 ∧ v = 0 := by
  rw [mem_circlePoints_zero]
  constructor
  · intro h
    exact ⟨add_eq_left.mp (congrArg Point.x h), add_eq_left.mp (congrArg Point.y h)⟩
  · rintro ⟨rfl, rfl⟩
    exact eq_of_coordinates (add_zero c.x) (add_zero c.y)

/-- Whether an offset is on the outline is told by its two lengths, whichever axis each is on: the symmetries. -/
theorem mem_circlePoints_of_lengths {c : Point} {r u v u' v' : Int} (hr : 0 ≤ r)
    (hmin : min |u| |v| = min |u'| |v'|) (hmax : max |u| |v| = max |u'| |v'|)
    (h : ⟨c.x + u, c.y + v⟩ ∈ circlePoints c r) : ⟨c.x + u', c.y + v'⟩ ∈ circlePoints c r := by
  rcases hr.eq_or_lt with rfl | hpos
  · obtain ⟨rfl, rfl⟩ := (centre_offset_mem_circlePoints_zero c u v).mp h
    have hle : |u'| ≤ 0 ∧ |v'| ≤ 0 := max_le_iff.mp (hmax ▸ by simp)
    exact (centre_offset_mem_circlePoints_zero c u' v').mpr
      ⟨abs_nonpos_iff.mp hle.1, abs_nonpos_iff.mp hle.2⟩
  · rw [mem_circlePoints_iff c hpos] at h ⊢
    rwa [← hmin, ← hmax]

/-- The outline reaches no farther than its radius on either axis. -/
theorem abs_le_radius_of_mem {c : Point} {r u v : Int} (hr : 0 ≤ r) (h : ⟨c.x + u, c.y + v⟩ ∈ circlePoints c r) :
    |u| ≤ r ∧ |v| ≤ r := by
  rcases hr.eq_or_lt with rfl | hpos
  · obtain ⟨rfl, rfl⟩ := (centre_offset_mem_circlePoints_zero c u v).mp h
    simp
  · exact max_le_iff.mp (((mem_circlePoints_iff c hpos u v).mp h).le_radius hr)

/-- No column up to the radius is empty. -/
theorem exists_mem_column (c : Point) {r u : Int} (hr : 0 ≤ r) (hu : |u| ≤ r) :
    ∃ v, ⟨c.x + u, c.y + v⟩ ∈ circlePoints c r := by
  rcases hr.eq_or_lt with rfl | hpos
  · exact ⟨0, (centre_offset_mem_circlePoints_zero c u 0).mpr ⟨abs_nonpos_iff.mp hu, rfl⟩⟩
  · obtain ⟨b, hb, harc⟩ := exists_onArc (abs_nonneg u) hu hpos
    exact ⟨b, (mem_circlePoints_iff c hpos u b).mpr (by rwa [abs_of_nonneg hb])⟩

theorem centre_not_mem_circlePoints (c : Point) {r : Int} (hr : 0 < r) : c ∉ circlePoints c r := by
  have h := mem_circlePoints_iff c hr 0 0
  simp only [add_zero, abs_zero, min_self, max_self] at h
  exact fun hc => not_onArc_origin hr (h.mp hc)

/-- Settles O37: the outline by offsets, and what holds of the two lengths of a point on the arc. -/
theorem circleOutlineIsSymmetric : Obligations.CircleOutlineIsSymmetric := by
  intro c r hr
  refine ⟨fun p hp => List.mem_append_left _ hp, fun u v h => ?outline, fun u v m l hm hl hpos => ?exact,
    fun u hu => exists_mem_column c hr hu, centre_not_mem_circlePoints c, mem_circlePoints_zero c⟩
  case outline =>
    have mirrored : ∀ u' v' : Int, min |u| |v| = min |u'| |v'| → max |u| |v| = max |u'| |v'| →
        ⟨c.x + u', c.y + v'⟩ ∈ circlePoints c r := fun _ _ hmin hmax => mem_circlePoints_of_lengths hr hmin hmax h
    refine ⟨?bounds, mirrored (-u) v ?_ ?_, mirrored u (-v) ?_ ?_, mirrored v u (min_comm ..) (max_comm ..)⟩
    case bounds =>
      obtain ⟨hu, hv⟩ := abs_le_radius_of_mem hr h
      exact ⟨(Int.natCast_natAbs u).trans_le hu, (Int.natCast_natAbs v).trans_le hv⟩
    all_goals rw [abs_neg]
  case exact =>
    subst hm hl
    exact mem_circlePoints_iff c hpos u v

end Sys2Proof.Machine
end

section
/-! PROOFS. The wire frames at the receiver (45_wire_frames.md R103 to R114, R116, R117): command frames, RAM writes, the
frames that are no row of the opcode table, and a receiver that is undefined. -/

namespace Sys2Proof.Machine

/-! ## Commands -/

/-- The command word's bits sent with `cs` high and the boot requirement met reach a defined receiver as the opcode
(R46, R112). -/
theorem rxAfterFrame_commandBits {s : State} {d : Device} (high : s.levels.cs = true) (boot : bootHolds s = true)
    (defined : s.rx = .defined d) (op : BitVec 8) :
    rxAfterFrame (commandBits op) s = .defined (rxCommand op d) :=
  commandBits_eq op ▸ rxAfterFrame_cmdFrame high boot defined op

/-- The opcode of a brightness level is in no other row of the map and carries the level (R50, R111). -/
theorem rxCommand_brightnessOpcode (level : BitVec 4) (d : Device) :
    rxCommand (brightnessOpcode level) d = rxBrightness level d := by
  have hop : brightnessOpcode level ∉ [0x00, 0x01, 0x02, 0x03, 0x08, 0x18, 0x24] ∧
      (brightnessOpcode level).extractLsb' 4 4 = 0xA ∧ (brightnessOpcode level).extractLsb' 0 4 = level := by
    revert level
    decide
  obtain ⟨hmap, hhigh, hlow⟩ := hop
  simp only [List.mem_cons, List.not_mem_nil, or_false, not_or] at hmap
  simp only [rxCommand, hmap, hhigh, hlow, if_false, if_true]

/-- Settles O40: each named command is its opcode at the receiver, which writes the one field, guarded but for SYS_DIS and
SYS_EN. -/
theorem namedCommandsWriteTheirField : Obligations.NamedCommandsWriteTheirField := by
  intro s d idle high boot defined
  have command := rxAfterFrame_commandBits high boot defined
  refine ⟨⟨_, sendFrame_idle .sysDis _ s idle, command 0x00⟩, ⟨_, sendFrame_idle .sysEn _ s idle, command 0x01⟩,
    ⟨_, sendFrame_idle .ledOff _ s idle, command 0x02⟩, ⟨_, sendFrame_idle .ledOn _ s idle, command 0x03⟩,
    ⟨_, sendFrame_idle .blinkOff _ s idle, command 0x08⟩, ⟨_, sendFrame_idle .masterMode _ s idle, command 0x18⟩,
    ⟨_, sendFrame_idle .comOption _ s idle, command 0x24⟩,
    fun level => ⟨_, sendFrame_idle (.brightnessFrame level) _ s idle, ?brightness⟩⟩
  case brightness =>
    rw [State.rx, afterFrame_rx, command, rxCommand_brightnessOpcode]
    rfl

theorem listedOpcode_iff (op : BitVec 8) :
    listedOpcode op = true ↔
      op.toNat ∈ [0x00, 0x01, 0x02, 0x03, 0x08, 0x18, 0x24] ∨ (0xA0 ≤ op.toNat ∧ op.toNat ≤ 0xAF) := by
  revert op
  decide +kernel

theorem rxCommand_of_unlisted {op : BitVec 8} (h : listedOpcode op = false) (d : Device) :
    rxCommand op d = havocAll d := by
  simp only [listedOpcode, Bool.or_eq_false_iff, beq_eq_false_iff_ne, ne_eq, and_assoc] at h
  simp only [rxCommand, h, if_false]

/-- Settles O41: the frame and the call `cmd` both send the opcode, which the receiver finds in no row of its map. -/
theorem unlistedOpcodeMakesEverythingUnknown : Obligations.UnlistedOpcodeMakesEverythingUnknown := by
  intro s d op idle high boot defined hmap hbrightness i hi
  have hunlisted : listedOpcode op = false :=
    Bool.eq_false_iff.mpr fun h => ((listedOpcode_iff op).mp h).elim hmap hbrightness
  have hsent : exec i s = .next (afterFrame (commandBits op) s) := by
    simp only [List.mem_cons, List.not_mem_nil, or_false] at hi
    obtain rfl | rfl := hi
    · exact sendFrame_idle (.cmdUnlisted op) _ s idle
    · rw [exec_cmd_natCast op.isLt, BitVec.ofNat_toNat, BitVec.setWidth_eq, sendCmd_idle _ op s idle, commandBits_eq]
  refine ⟨_, hsent, ?_⟩
  rw [State.rx, afterFrame_rx, rxAfterFrame_commandBits high boot defined, rxCommand_of_unlisted hunlisted]
  rfl

/-! ## RAM writes -/

theorem exec_writeRam_idle {s : State} (idle : s.txn = .idle) (addr : BitVec 7) (words : List Row) (residual : Bits) :
    exec (.writeRam addr words residual) s = .next (afterFrame (wramFrame addr.toNat words residual) s) :=
  ramWriteBits_eq addr words residual ▸ sendFrame_idle (.writeRam addr words residual) _ s idle

/-- A RAM write sent with `cs` high and the boot requirement met reaches a defined receiver with all its words and
residual bits (R103, R113). -/
theorem rxAfterFrame_wramFrame {s : State} {d : Device} (high : s.levels.cs = true) (boot : bootHolds s = true)
    (defined : s.rx = .defined d) (addr : BitVec 7) (words : List Row) {residual : Bits} (short : residual.length < 16) :
    rxAfterFrame (wramFrame addr.toNat words residual) s = rxWrite addr words residual d :=
  (rxAfterFrame_eq_rxFrame high boot defined _).trans (rxFrame_wramFrame addr words residual short d)

/-- `rxWords_ok` with no bound on the pointer when there is no word to land: an empty payload may start past row 23
(R113). -/
theorem rxWords_of_fits (words : List Row) (p : Nat) (d : Device) (hp : d.ptr = some p)
    (fits : words = [] ∨ p + words.length ≤ 24) :
    ∃ ram : Vector (Known Row) 24,
      rxWords words d = .ok { d with ram := ram, ptr := some (p + words.length) } ∧
      ∀ y : Fin 24, ram[y] =
        if h : p ≤ y ∧ y < p + words.length then guarded d (words[(y : Nat) - p]'(by omega)) else d.ram[y] := by
  rcases fits with rfl | fits
  · refine ⟨d.ram, ?_, fun y => ?_⟩
    · rw [List.length_nil, Nat.add_zero, ← hp]
      rfl
    · rw [dif_neg (by rw [List.length_nil]; omega)]
  · exact rxWords_ok words p d hp fits

theorem rxPartial_of_ptr (residual : Bits) {d : Device} {p : Nat} (hp : d.ptr = some p) :
    rxPartial residual d = if residual = [] then d else { d with ram := d.ram.setIfInBounds p .unknown } := by
  simp only [rxPartial, hp]

/-- Residual bits make the row at the pointer unknown, if there is such a row, and no other (R114). -/
theorem rxPartial_eq (residual : Bits) {d : Device} {p : Nat} (hp : d.ptr = some p) :
    ∃ ram : Vector (Known Row) 24, rxPartial residual d = { d with ram := ram } ∧
      ∀ y : Fin 24, ram[y] = if y = p ∧ residual ≠ [] then .unknown else d.ram[y] := by
  by_cases hres : residual = []
  · exact ⟨d.ram, by rw [rxPartial_of_ptr _ hp, if_pos hres], fun y => by rw [if_neg fun h => h.2 hres]⟩
  · refine ⟨d.ram.setIfInBounds p .unknown, by rw [rxPartial_of_ptr _ hp, if_neg hres], fun y => ?_⟩
    simp only [Fin.getElem_fin, Vector.getElem_setIfInBounds, eq_comm, ne_eq, hres, not_false_eq_true, and_true]

/-- The one spec lemma of a RAM write that is not refused (R113, R114). -/
theorem rxWrite_of_fits (addr : BitVec 7) (words : List Row) (residual : Bits) (d : Device)
    (fits : words = [] ∨ addr.toNat + words.length ≤ 24) :
    ∃ ram : Vector (Known Row) 24,
      rxWrite addr words residual d = .defined { d with ram := ram, ptr := none } ∧
      ∀ y : Fin 24, ram[y] =
        if h : addr.toNat ≤ y ∧ y < addr.toNat + words.length then
          guarded d (words[(y : Nat) - addr.toNat]'(by omega))
        else if y = addr.toNat + words.length ∧ residual ≠ [] then .unknown
        else d.ram[y] := by
  obtain ⟨written, hwords, hwritten⟩ := rxWords_of_fits words addr.toNat { d with ptr := some addr.toNat } rfl fits
  obtain ⟨ram, hpartial, hram⟩ := rxPartial_eq residual
    (d := { d with ram := written, ptr := some (addr.toNat + words.length) }) rfl
  refine ⟨ram, by simp only [rxWrite, hwords, hpartial], fun y => ?_⟩
  rw [hram, hwritten]
  by_cases hy : addr.toNat ≤ y ∧ (y : Nat) < addr.toNat + words.length
  · rw [if_neg (by omega), dif_pos hy, dif_pos hy]
    rfl
  · rw [dif_neg hy, dif_neg hy]

theorem rxWrite_of_overflow (addr : BitVec 7) {words : List Row} (residual : Bits) (d : Device) (nonempty : words ≠ [])
    (past : 24 < addr.toNat + words.length) :
    rxWrite addr words residual d = .refused (.refRxRamOverflow (max addr.toNat 24)) := by
  simp only [rxWrite, rxWords_overflow words addr.toNat { d with ptr := some addr.toNat } rfl past nonempty]

/-- Settles O42: the frame is the receiver's RAM write, whose words land and whose residual bits spoil the row after
them. -/
theorem ramWriteStoresItsWords : Obligations.RamWriteStoresItsWords := by
  intro s d addr words residual idle high boot defined short fits
  obtain ⟨ram, hwrite, hram⟩ := rxWrite_of_fits addr words residual d fits
  exact ⟨_, ram, exec_writeRam_idle idle addr words residual,
    (rxAfterFrame_wramFrame high boot defined addr words short).trans hwrite, hram⟩

/-- Settles O43: the frame is sent whole, and the receiver's word loop is what stops. -/
theorem ramWritePastRow23IsRefusedByTheReceiver : Obligations.RamWritePastRow23IsRefusedByTheReceiver := by
  intro s d addr words residual idle high boot defined short nonempty past
  exact ⟨_, exec_writeRam_idle idle addr words residual,
    (rxAfterFrame_wramFrame high boot defined addr words short).trans (rxWrite_of_overflow addr residual d nonempty past),
    rfl, idle⟩

/-! ## Frames that are no row of the opcode table -/

theorem rxFrame_truncatedId {bits : Bits} (nonempty : 0 < bits.length) (short : bits.length < 3) (d : Device) :
    rxFrame bits d = .defined (havocAll d) := by
  rw [rxFrame, if_neg nonempty.ne', if_pos short]

/-- After a command ID the receiver asks the length, then the trailing bit (R103). -/
theorem rxFrame_commandId (rest : Bits) (d : Device) :
    rxFrame ([true, false, false] ++ rest) d =
      if rest.length < 9 then .defined (havocControl d)
      else if 9 < rest.length then .refused (.refRxMultiCommand ([true, false, false] ++ rest))
      else if rest.getLastD false then .refused (.refRxTrailingBit ([true, false, false] ++ rest))
      else .defined (rxCommand (fieldWord 8 (rest.take 8)) d) := by
  have hlen : ([true, false, false] ++ rest).length = rest.length + 3 := rfl
  have hid : ([true, false, false] ++ rest).take 3 = [true, false, false] := rfl
  have hlast : ([true, false, false] ++ rest).getLastD false = rest.getLastD false := by
    simp only [List.cons_append, List.nil_append, List.getLastD_cons]
  have hshort : rest.length + 3 < 12 ↔ rest.length < 9 := by omega
  have hlong : 12 < rest.length + 3 ↔ 9 < rest.length := by omega
  simp only [rxFrame, hlen, hlast, hshort, hlong]
  rw [if_neg (by omega), if_neg (by omega), if_pos hid]
  rfl

theorem rxFrame_truncatedHeader {rest : Bits} (short : rest.length < 7) (d : Device) :
    rxFrame ([true, false, true] ++ rest) d = .defined (havocRam d) := by
  have hlen : ([true, false, true] ++ rest).length = rest.length + 3 := rfl
  have hid : ([true, false, true] ++ rest).take 3 = [true, false, true] := rfl
  simp only [rxFrame, hlen]
  rw [if_neg (by omega), if_neg (by omega), if_neg (by simp), if_pos hid, if_pos (by omega)]

theorem rxFrame_unknownId {a b c : Bool} (rest : Bits) (notCommand : [a, b, c] ≠ [true, false, false])
    (notRamWrite : [a, b, c] ≠ [true, false, true]) (d : Device) :
    rxFrame (a :: b :: c :: rest) d = .refused (.refRxUnknownId (a :: b :: c :: rest)) := by
  simp [rxFrame, notCommand, notRamWrite]

/-- Settles O44, by the frame's ID: none, a cut one, a command's, a RAM write's, any other. -/
theorem malformedFramesAtTheReceiver : Obligations.MalformedFramesAtTheReceiver := by
  intro d bits
  refine ⟨?empty, fun nonempty short => rxFrame_truncatedId nonempty short d, ?command, ?ramWrite, ?unknown⟩
  case empty =>
    rintro rfl
    rfl
  case command =>
    rintro rest rfl
    refine ⟨fun short => ?_, fun long => ?_, fun op hrest hop => ?_⟩
    · rw [rxFrame_commandId, if_pos short]
      rfl
    · rw [rxFrame_commandId, if_neg (by omega), if_pos long]
    · have hlen : rest.length = 9 := by rw [hrest, List.length_append, hop, List.length_singleton]
      have hlast : rest.getLastD false = true := by rw [hrest, List.getLastD_concat]
      rw [rxFrame_commandId, if_neg (by omega), if_neg (by omega), if_pos hlast]
  case ramWrite =>
    rintro rest rfl short
    exact rxFrame_truncatedHeader short d
  case unknown =>
    rintro a b c rest rfl notCommand notRamWrite
    exact rxFrame_unknownId rest notCommand notRamWrite d

/-! ## An undefined receiver -/

theorem receive_of_undefined {r : Receiver} (undefined : ∀ d, r ≠ .defined d) (bits : Bits) : r.receive bits = r := by
  cases r with
  | defined d => exact absurd rfl (undefined d)
  | refused why => rfl
  | unbooted => rfl

theorem unboot_of_undefined {r : Receiver} (undefined : ∀ d, r ≠ .defined d) : r.unboot = r := by
  cases r with
  | defined d => exact absurd rfl (undefined d)
  | refused why => rfl
  | unbooted => rfl

theorem rxAfter_of_undefined {r : Receiver} (undefined : ∀ d, r ≠ .defined d) (openBits : Option Bits) (e : Event) :
    rxAfter openBits e r = r := by
  unfold rxAfter
  cases closedBy openBits e with
  | none => rfl
  | some bits => exact receive_of_undefined undefined bits

/-- That the receiver is undefined, and for this reason, is an invariant of the wire (R116; log 14). -/
theorem wireClosed_rx_eq {r : Receiver} (undefined : ∀ d, r ≠ .defined d) : WireClosed (fun w => w.rx = r) where
  write w p v h := by rw [write_rx, h, rxAfter_of_undefined undefined]
  unboot w h := by rw [h, unboot_of_undefined undefined]

/-- Settles O55: a closed frame and an unmet boot requirement both leave an undefined receiver as it is. -/
theorem undefinedReceiverStaysUndefined : Obligations.UndefinedReceiverStaysUndefined :=
  fun _ _ hstep undefined => (wireClosed_rx_eq undefined).step hstep rfl

end Sys2Proof.Machine
end

section
/-! PROOFS. The transaction scope at the receiver (45_wire_frames.md R103; 70_reset_and_hazards.md R133, R139;
30_encoding.md R43; log 7): what the boot requirement asks, and what `begin`, the host's own pin writes and `end` make of it. -/

namespace Sys2Proof.Machine

/-! ## The boot requirement -/

theorem bootMet_iff (s : State) : bootMet s = true ↔ s.levels.cs = true ∧ ∀ p, s.dirs.get p = .output := by
  simp only [bootMet, Bool.and_eq_true, beq_iff_eq]
  constructor
  · rintro ⟨⟨⟨⟨hcs, hwr⟩, hdata⟩, hrd⟩, high⟩
    exact ⟨high, fun p => by cases p <;> assumption⟩
  · rintro ⟨high, hdirs⟩
    exact ⟨⟨⟨⟨hdirs .cs, hdirs .wr⟩, hdirs .data⟩, hdirs .rd⟩, high⟩

theorem bootHolds_of_decided {s : State} (h : s.boot = .decided) : bootHolds s = true := by
  simp only [bootHolds, h]

theorem bootHolds_of_not_decided {s : State} (h : s.boot ≠ .decided) : bootHolds s = bootMet s := by
  cases hb : s.boot with
  | decided => exact absurd hb h
  | waiting | opening => simp only [bootHolds, hb]

theorem bootHolds_of_bootMet {s : State} (h : bootMet s = true) : bootHolds s = true := by
  by_cases hb : s.boot = .decided
  · exact bootHolds_of_decided hb
  · rw [bootHolds_of_not_decided hb, h]

theorem unboot_of_defined {r : Receiver} {d : Device} (h : r = .defined d) : r.unboot = .unbooted := by
  rw [h]
  rfl

/-! ## `begin` and `end` -/

/-- The state that `begin` leaves from an idle scope (R61). -/
def begun (s : State) : State := { pinWrite .cs false (checkBoot s) with txn := .active }

theorem exec_beginTxn_idle {s : State} (idle : s.txn = .idle) : exec .beginTxn s = .next (begun s) :=
  beginScope_idle .beginTxn s idle

/-- `cs` driven low closes no frame, so at a `begin` only the boot requirement concerns the receiver (R103, R133). -/
theorem begun_rx (s : State) : (begun s).rx = if bootHolds s then s.rx else s.rx.unboot := checkBoot_rx s

theorem begun_boot (s : State) : (begun s).boot = .decided := checkBoot_boot s

theorem begun_openFrame {s : State} (high : s.levels.cs = true) : (begun s).openFrame = some [] := by
  simp [begun, State.openFrame, nextOpen_cs_low, high]

/-- `cs` driven high gives the receiver the open frame, if there is one (R103). -/
theorem pinWrite_cs_high_rx (s : State) :
    (pinWrite .cs true s).rx = s.openFrame.elim s.rx fun bits => s.rx.receive bits := by
  rw [State.openFrame, State.rx, pinWrite_wire, write_rx, rxAfter]
  cases s.wire.openBits <;> rfl

/-! ## The host's own pin writes -/

theorem applyPinGroup_singleton_write (p : Pin) (b : Level) (s : State) :
    applyPinGroup [p] (.write b) s = pinWrite p b (watchBoot (p, b) s) := rfl

/-- An event that latches a bit into a frame opened before the first transaction begins it (R133; log 7). -/
theorem watchBoot_latches {s : State} {e : Event} {ok : Bool} (h : s.boot = .opening ok)
    (hlatch : latches s.levels s.wire.openBits e = true) : watchBoot e s = decideBoot ok s := by
  have hclose : e ≠ (.cs, true) := by
    rintro rfl
    cases hlatch
  rw [watchBoot_opening e ok s h, if_neg hclose, if_pos hlatch]

/-- Settles O12: `begin` is the boot check and `cs` driven low, the host's own writes are watched from the frame they open
to its first bit, and `end` is `cs` driven high. -/
theorem scopeAtTheReceiver : Obligations.ScopeAtTheReceiver := by
  intro s t
  refine ⟨fun idle h => ?begin, fun waiting h => ?opens, fun ok hboot h wr low opened => ?latches,
    fun active h => ?closes⟩
  case begin =>
    obtain rfl : begun s = t := Host.Outcome.next.inj ((exec_beginTxn_idle idle).symm.trans h)
    refine ⟨begun_boot s, begun_openFrame, fun hdecided => ?_, fun hmet => ?_, fun hne hunmet d defined => ?_⟩
    · rw [begun_rx, if_pos (bootHolds_of_decided hdecided)]
    · rw [begun_rx, if_pos (bootHolds_of_bootMet ((bootMet_iff s).mpr hmet))]
    · have hfails : ¬ bootHolds s = true := by
        rw [bootHolds_of_not_decided hne, bootMet_iff]
        exact hunmet
      rw [begun_rx, if_neg hfails, unboot_of_defined defined]
  case opens =>
    obtain rfl := Host.Outcome.next.inj h
    rw [applyPinGroup_singleton_write, watchBoot_waiting _ s waiting, if_pos rfl]
    exact ⟨bootMet s, rfl, bootMet_iff s, rfl⟩
  case latches =>
    obtain rfl := Host.Outcome.next.inj h
    have hlatch : latches s.levels s.wire.openBits (.wr, true) = true := by
      have hopen : s.wire.openBits ≠ none := fun hnone => opened (by rw [State.openFrame, hnone, Option.map_none])
      simp [latches, wr, low, Option.isSome_iff_ne_none, hopen]
    rw [applyPinGroup_singleton_write, watchBoot_latches hboot hlatch]
    refine ⟨rfl, ?_, ?_⟩
    · rintro rfl
      rfl
    · rintro rfl d defined
      exact unboot_of_defined defined
  case closes =>
    obtain rfl := Host.Outcome.next.inj ((endScope_active s active).symm.trans h)
    refine ⟨fun open_ hopen => ?_, fun hnone => ?_⟩
    · exact (pinWrite_cs_high_rx s).trans (by rw [hopen, Option.elim_some])
    · exact (pinWrite_cs_high_rx s).trans (by rw [hnone, Option.elim_none])

end Sys2Proof.Machine
end

section
/-! PROOFS. The stops of a call (60_exceptions.md R118 to R122, R125): the refusals that its operands draw, the faults that
the scope draws, and that every other call completes. -/

namespace Sys2Proof.Machine

/-! ## Operands outside their domain -/

theorem shiftValueOf_eq_none {v : Int} (h : ¬ (0 ≤ v ∧ v < 65536)) : shiftValueOf v = none := if_neg h

theorem exec_shiftBits_of_not_value {v : Int} (h : ¬ (0 ≤ v ∧ v < 65536)) (n : Int) (s : State) :
    exec (.shiftBits n v) s = .refused (.refShiftValueWidth v) := by
  simp only [exec, execShiftBits, shiftValueOf_eq_none h]

theorem withDrawable_of_illFormed {d : Drawable} (bad : d.wf = false) (r : Result) :
    withDrawable d r = .refused (.refIllFormedDrawable d) := if_neg (ne_true_of_eq_false bad)

theorem exec_drawableCall_of_illFormedIn {c : DrawableCall} {d : Drawable} (h : illFormedIn c = some d) (s : State) :
    exec (.drawableCall c) s = .refused (.refIllFormedDrawable d) := by
  simp only [exec, execDrawableCall, h]

/-- The drawable that a drawable's call is checked for first (R91; log 16). -/
inductive ChecksFirst : Instr → Drawable → Prop where
  | lineDraw (d : LineShape) : ChecksFirst (.lineDraw d) (.line d)
  | rectDraw (d : RectShape) : ChecksFirst (.rectDraw d) (.rect d false)
  | rectFill (d : RectShape) : ChecksFirst (.rectFill d) (.rect d true)
  | circleDraw (d : CircleShape) : ChecksFirst (.circleDraw d) (.circle d)
  | update (d : Drawable) : ChecksFirst (.drawableCall (.update d)) d
  | interact (d other : Drawable) : ChecksFirst (.drawableCall (.interact d other)) d

theorem ChecksFirst.exec_of_illFormed {i : Instr} {d : Drawable} (first : ChecksFirst i d) (bad : d.wf = false)
    (s : State) : exec i s = .refused (.refIllFormedDrawable d) := by
  cases first with
  | lineDraw | rectDraw | rectFill | circleDraw => exact withDrawable_of_illFormed bad _
  | update | interact => exact exec_drawableCall_of_illFormedIn (by simp [illFormedIn, bad]) s

/-- A call's operands draw a refusal X1 to X4, with what R120 records. -/
inductive RefusedAs : Instr → Refusal → Prop where
  | opcode {op : Int} (h : op < 0 ∨ 255 < op) : RefusedAs (.cmd op) (.refOpcodeWidth op)
  | frameLength {w : List Row} (h : w.length ≠ 24) : RefusedAs (.replaceFrame w) (.refFrameLength w.length)
  | shiftValue {n v : Int} (h : v < 0 ∨ 65535 < v) : RefusedAs (.shiftBits n v) (.refShiftValueWidth v)
  | firstDrawable {i : Instr} {d : Drawable} (first : ChecksFirst i d) (bad : d.wf = false) :
    RefusedAs i (.refIllFormedDrawable d)
  | otherDrawable {d other : Drawable} (accepted : d.wf = true) (bad : other.wf = false) :
    RefusedAs (.drawableCall (.interact d other)) (.refIllFormedDrawable other)

/-- The operands are checked before the scope (R122). -/
theorem RefusedAs.exec_eq {i : Instr} {r : Refusal} (h : RefusedAs i r) (s : State) : exec i s = .refused r := by
  cases h with
  | opcode h => simp only [exec, execCmd, opcodeOf_eq_none h]
  | frameLength h => simp only [exec, execReplaceFrame, frameOf_eq_none h]
  | shiftValue h => exact exec_shiftBits_of_not_value (by omega) _ s
  | firstDrawable first bad => exact first.exec_of_illFormed bad s
  | otherDrawable accepted bad => exact exec_drawableCall_of_illFormedIn (by simp [illFormedIn, accepted, bad]) s

theorem exists_refusedAs {i : Instr} (h : OperandRefused i) : ∃ r, RefusedAs i r := by
  cases i with
  | cmd op => exact ⟨_, .opcode (by rw [OperandRefused] at h; omega)⟩
  | shiftBits n v => exact ⟨_, .shiftValue (by rw [OperandRefused] at h; omega)⟩
  | replaceFrame w => exact ⟨_, .frameLength h⟩
  | lineDraw d => exact ⟨_, .firstDrawable (.lineDraw d) (Bool.eq_false_iff.mpr (mt (lineShape_wf_iff d).mp h))⟩
  | rectDraw d => exact ⟨_, .firstDrawable (.rectDraw d) (Bool.eq_false_iff.mpr (mt (rectShape_wf_iff d).mp h))⟩
  | rectFill d => exact ⟨_, .firstDrawable (.rectFill d) (Bool.eq_false_iff.mpr (mt (rectShape_wf_iff d).mp h))⟩
  | circleDraw d => exact ⟨_, .firstDrawable (.circleDraw d) (Bool.eq_false_iff.mpr (mt (circleShape_wf_iff d).mp h))⟩
  | drawableCall c =>
    cases c with
    | update d => exact ⟨_, .firstDrawable (.update d) h⟩
    | interact d other =>
      cases hd : d.wf with
      | false => exact ⟨_, .firstDrawable (.interact d other) hd⟩
      | true => exact ⟨_, .otherDrawable hd ((Bool.and_eq_false_iff.mp h).resolve_left (by simp [hd]))⟩
  | _ => exact h.elim

/-! ## Ill-formed drawables, kind by kind -/

theorem lineShape_wf_eq_false_iff (d : LineShape) :
    d.wf = false ↔ d.endPt.x < d.location.x ∨ d.endPt.y < d.location.y := by
  rw [← Bool.not_eq_true, lineShape_wf_iff]; omega

theorem rectShape_wf_eq_false_iff (d : RectShape) :
    d.wf = false ↔ d.endPt.x < d.location.x ∨ d.endPt.y < d.location.y := by
  rw [← Bool.not_eq_true, rectShape_wf_iff]; omega

theorem circleShape_wf_eq_false_iff (d : CircleShape) : d.wf = false ↔ d.radius < 0 := by
  rw [← Bool.not_eq_true, circleShape_wf_iff, Int.not_le]

theorem checksFirst_line_iff (i : Instr) (d : LineShape) : ChecksFirst i (.line d) ↔
    i = .lineDraw d ∨ (∃ o, i = .drawableCall (.interact (.line d) o)) ∨ i = .drawableCall (.update (.line d)) := by
  constructor
  · rintro (_ | _ | _ | _ | _ | _) <;> simp
  · rintro (rfl | ⟨o, rfl⟩ | rfl)
    exacts [.lineDraw d, .interact _ o, .update _]

theorem checksFirst_rect_iff (i : Instr) (d : RectShape) (filled : Bool) : ChecksFirst i (.rect d filled) ↔
    (i = .rectDraw d ∧ filled = false) ∨ (i = .rectFill d ∧ filled = true) ∨
      (∃ o, i = .drawableCall (.interact (.rect d filled) o)) ∨ i = .drawableCall (.update (.rect d filled)) := by
  constructor
  · rintro (_ | _ | _ | _ | _ | _) <;> simp
  · rintro (⟨rfl, rfl⟩ | ⟨rfl, rfl⟩ | ⟨o, rfl⟩ | rfl)
    exacts [.rectDraw d, .rectFill d, .interact _ o, .update _]

theorem checksFirst_circle_iff (i : Instr) (d : CircleShape) : ChecksFirst i (.circle d) ↔
    i = .circleDraw d ∨ (∃ o, i = .drawableCall (.interact (.circle d) o)) ∨
      i = .drawableCall (.update (.circle d)) := by
  constructor
  · rintro (_ | _ | _ | _ | _ | _) <;> simp
  · rintro (rfl | ⟨o, rfl⟩ | rfl)
    exacts [.circleDraw d, .interact _ o, .update _]

/-! ## Calls that open a scope -/

/-- The operation opens a scope for `caller`: it completes from an idle scope, and F1 stops it in a live one (R61, R69). -/
structure OpensScope (caller : Instr) (op : State → Result) : Prop where
  idle : ∀ s, s.txn = .idle → ∃ t, op s = .next t
  active : ∀ s, s.txn = .active → op s = .fault (.nestedTransaction caller)

theorem opensScope_beginScope (caller : Instr) : OpensScope caller (beginScope caller) where
  idle s h := ⟨_, beginScope_idle caller s h⟩
  active := beginScope_active caller

theorem opensScope_sendFrame (caller : Instr) (bits : Bits) : OpensScope caller (sendFrame caller bits) where
  idle s h := ⟨_, sendFrame_idle caller bits s h⟩
  active := sendFrame_active caller bits

theorem opensScope_sendCmd (caller : Instr) (op : BitVec 8) : OpensScope caller (sendCmd caller op) where
  idle s h := ⟨_, sendCmd_idle caller op s h⟩
  active := sendCmd_active caller op

theorem opensScope_ramWriteOp (caller : Instr) (word : Row → Row) (after : Row) :
    OpensScope caller (ramWriteOp caller word after) where
  idle s h := ⟨_, ramWriteOp_idle caller word after s h⟩
  active := ramWriteOp_active caller word after

theorem opensScope_driverInit (caller : Instr) : OpensScope caller (driverInit caller) where
  idle s h := ⟨_, driverInit_idle caller s h⟩
  active := driverInit_active caller

theorem opensScope_execSurfaceInit : OpensScope .surfaceInit execSurfaceInit where
  idle s h := ⟨_, execSurfaceInit_idle s h⟩
  active := execSurfaceInit_active

theorem opensScope_execCmd {op : Int} (h0 : 0 ≤ op) (h : op < 256) : OpensScope (.cmd op) (execCmd op) := by
  unfold execCmd
  rw [opcodeOf, if_pos ⟨h0, h⟩]
  exact opensScope_sendCmd _ _

theorem opensScope_driverBrightness (caller : Instr) {level : Int} (h0 : 0 ≤ level) (h : level ≤ 15) :
    OpensScope caller (driverBrightness caller level) := by
  unfold driverBrightness
  rw [brightnessOf, if_pos ⟨h0, h⟩]
  exact opensScope_sendCmd _ _

/-- `begin`, and every call that emits a frame, opens a scope of its own (R120, F1). -/
theorem opensScope_exec {i : Instr} (opens : EmitsFrame i ∨ i = .beginTxn) : OpensScope i (exec i) := by
  obtain emits | rfl := opens
  case inr => exact opensScope_beginScope _
  cases i with
  | sysDis | sysEn | ledOff | ledOn | blinkOff | masterMode | comOption | brightnessFrame | cmdUnlisted | writeRam =>
    exact opensScope_sendFrame _ _
  | cmd op => exact opensScope_execCmd emits.1 emits.2
  | initDriver => exact opensScope_driverInit _
  | shutdownLeds | shutdown => exact opensScope_sendCmd _ _
  | setBrightness level => exact opensScope_driverBrightness _ emits.1 emits.2
  | clear | fill | flush | surfaceFlush => exact opensScope_ramWriteOp _ _ _
  | surfaceInit => exact opensScope_execSurfaceInit
  | _ => exact emits.elim

/-! ## Faults -/

theorem shiftBitsOp_active_of_width {n : Int} (v : Row) {s : State} (active : s.txn = .active) (h : n < 0 ∨ 16 < n) :
    shiftBitsOp n v s = .fault (.shiftWidthOutOfRange n) := by
  simp only [shiftBitsOp, active, if_pos h]

theorem exec_shiftBits_of_value {v : Int} (h0 : 0 ≤ v) (h : v < 65536) (n : Int) (s : State) :
    exec (.shiftBits n v) s = shiftBitsOp n (BitVec.ofNat 16 v.toNat) s := by
  simp only [exec, execShiftBits, shiftValueOf_eq_some h0 h]

/-- The scope, or the width of a shift, draws a fault F1 to F4, with what R120 records. -/
inductive FaultsAs (i : Instr) (s : State) : Fault → Prop where
  | nested (opens : EmitsFrame i ∨ i = .beginTxn) (active : s.txn = .active) : FaultsAs i s (.nestedTransaction i)
  | noScope (hi : i = .endTxn) (idle : s.txn = .idle) : FaultsAs i s .endWithoutBegin
  | shiftOutside {n v : Int} (hi : i = .shiftBits n v) (h0 : 0 ≤ v) (h : v < 65536) (idle : s.txn = .idle) :
    FaultsAs i s (.shiftOutsideTransaction n (BitVec.ofNat 16 v.toNat))
  | shiftWidth {n v : Int} (hi : i = .shiftBits n v) (h0 : 0 ≤ v) (h : v < 65536) (active : s.txn = .active)
    (width : n < 0 ∨ 16 < n) : FaultsAs i s (.shiftWidthOutOfRange n)

theorem FaultsAs.exec_eq {i : Instr} {s : State} {f : Fault} (h : FaultsAs i s f) : exec i s = .fault f := by
  cases h with
  | nested opens active => exact (opensScope_exec opens).active s active
  | noScope hi idle => subst hi; exact endScope_idle s idle
  | shiftOutside hi h0 h idle => subst hi; exact (exec_shiftBits_of_value h0 h _ s).trans (shiftBitsOp_idle _ _ s idle)
  | shiftWidth hi h0 h active width =>
    subst hi
    exact (exec_shiftBits_of_value h0 h _ s).trans (shiftBitsOp_active_of_width _ active width)

/-! ## Every answer of a call -/

theorem exists_frameOf_eq_some {w : List Row} (h : w.length = 24) : ∃ f, frameOf w = some f := ⟨_, dif_pos h⟩

/-- A call with operands in their domains answers a listed fault or a next state. -/
theorem fault_or_next_of_accepted {i : Instr} (accepted : ¬ OperandRefused i) (s : State) :
    (∃ f, FaultsAs i s f) ∨ ∃ t, exec i s = .next t := by
  by_cases opens : EmitsFrame i ∨ i = .beginTxn
  · cases htxn : s.txn with
    | idle => exact .inr ((opensScope_exec opens).idle s htxn)
    | active => exact .inl ⟨_, .nested opens htxn⟩
  cases i with
  | pinGroupOp | pinGroupRead | constructDriver | setPixel | clearPixel | surfaceWrite | surfaceClear =>
    exact .inr ⟨_, rfl⟩
  | endTxn =>
    cases htxn : s.txn with
    | idle => exact .inl ⟨_, .noScope rfl htxn⟩
    | active => exact .inr ⟨_, endScope_active s htxn⟩
  | shiftBits n v =>
    obtain ⟨h0, h⟩ := not_not.mp accepted
    cases htxn : s.txn with
    | idle => exact .inl ⟨_, .shiftOutside rfl h0 h htxn⟩
    | active =>
      by_cases width : n < 0 ∨ 16 < n
      · exact .inl ⟨_, .shiftWidth rfl h0 h htxn width⟩
      · exact .inr ⟨_, exec_shiftBits_active htxn (by omega) (by omega) h0 h⟩
  | cmd op => exact absurd (.inl (not_not.mp accepted)) opens
  | setBrightness level => exact .inr ⟨s, driverBrightness_outside _ level s fun inRange => opens (.inl inRange)⟩
  | replaceFrame w =>
    obtain ⟨f, hf⟩ := exists_frameOf_eq_some (not_not.mp accepted)
    exact .inr ⟨setFrame f s, by simp only [exec, execReplaceFrame, hf]⟩
  | lineDraw d => exact .inr ⟨_, exec_lineDraw ((lineShape_wf_iff d).mpr (not_not.mp accepted)) s⟩
  | rectDraw d => exact .inr ⟨_, exec_rectDraw ((rectShape_wf_iff d).mpr (not_not.mp accepted)) s⟩
  | rectFill d => exact .inr ⟨_, exec_rectFill ((rectShape_wf_iff d).mpr (not_not.mp accepted)) s⟩
  | circleDraw d => exact .inr ⟨_, exec_circleDraw ((circleShape_wf_iff d).mpr (not_not.mp accepted)) s⟩
  | drawableCall c => exact .inr ⟨s, updateAndInteractDoNothing s c (eq_true_of_ne_false accepted)⟩
  | beginTxn => exact absurd (.inr rfl) opens
  | _ => exact absurd (.inl trivial) opens

theorem exec_eq_fault_iff {i : Instr} {s : State} {f : Fault} : exec i s = .fault f ↔ FaultsAs i s f := by
  refine ⟨fun h => ?_, FaultsAs.exec_eq⟩
  by_cases refused : OperandRefused i
  · obtain ⟨r, hr⟩ := exists_refusedAs refused
    cases (hr.exec_eq s).symm.trans h
  obtain ⟨f', hf⟩ | ⟨t, ht⟩ := fault_or_next_of_accepted refused s
  · cases hf.exec_eq.symm.trans h
    exact hf
  · cases ht.symm.trans h

theorem operandRefused_of_exec {i : Instr} {s : State} {r : Refusal} (h : exec i s = .refused r) : OperandRefused i := by
  by_contra accepted
  obtain ⟨f, hf⟩ | ⟨t, ht⟩ := fault_or_next_of_accepted accepted s
  · cases hf.exec_eq.symm.trans h
  · cases ht.symm.trans h

theorem exec_eq_refused_iff {i : Instr} {s : State} {r : Refusal} : exec i s = .refused r ↔ RefusedAs i r := by
  refine ⟨fun h => ?_, fun h => h.exec_eq s⟩
  obtain ⟨r', hr⟩ := exists_refusedAs (operandRefused_of_exec h)
  cases (hr.exec_eq s).symm.trans h
  exact hr

/-! ## The obligations -/

/-- Settles O15: the value is checked before the shift, which asks for a scope before it looks at the width. -/
theorem shiftBitsStopsInThisOrder : Obligations.ShiftBitsStopsInThisOrder := fun s n _ =>
  ⟨fun outside => exec_shiftBits_of_not_value outside n s, fun h0 h idle => (FaultsAs.shiftOutside rfl h0 h idle).exec_eq,
    fun h0 h active width => (FaultsAs.shiftWidth rfl h0 h active width).exec_eq⟩

/-- Settles O48: the listed faults are `FaultsAs`, one by one, and they are all the faults of a call. -/
theorem faultsAreExactlyThoseListed : Obligations.FaultsAreExactlyThoseListed := by
  intro i s f
  rw [exec_eq_fault_iff]
  constructor
  · intro h
    cases h with
    | nested opens active =>
      exact opens.elim (fun emits => .inl ⟨emits, active, rfl⟩) fun hi => .inr (.inl ⟨hi, active, rfl⟩)
    | noScope hi idle => exact .inr (.inr (.inl ⟨hi, idle, rfl⟩))
    | shiftOutside hi h0 h idle => exact .inr (.inr (.inr (.inl ⟨_, _, hi, h0, h, idle, rfl⟩)))
    | shiftWidth hi h0 h active width => exact .inr (.inr (.inr (.inr ⟨_, _, hi, h0, h, active, width, rfl⟩)))
  · rintro (⟨emits, active, rfl⟩ | ⟨hi, active, rfl⟩ | ⟨hi, idle, rfl⟩ | ⟨n, v, hi, h0, h, idle, rfl⟩ |
      ⟨n, v, hi, h0, h, active, width, rfl⟩)
    · exact .nested (.inl emits) active
    · exact .nested (.inr hi) active
    · exact .noScope hi idle
    · exact .shiftOutside hi h0 h idle
    · exact .shiftWidth hi h0 h active width

/-- Settles O49: the listed refusals are `RefusedAs`, X3 for each kind of drawable, and they are all the refusals of a
call. -/
theorem refusalsAreExactlyOperandRefusals : Obligations.RefusalsAreExactlyOperandRefusals := by
  refine ⟨fun i s => ⟨fun ⟨r, h⟩ => operandRefused_of_exec h, fun h => ?refuses⟩, fun i s r => ?listed⟩
  case refuses =>
    obtain ⟨r, hr⟩ := exists_refusedAs h
    exact ⟨r, hr.exec_eq s⟩
  simp only [exec_eq_refused_iff, ← checksFirst_line_iff, ← checksFirst_rect_iff, ← checksFirst_circle_iff,
    ← lineShape_wf_eq_false_iff, ← rectShape_wf_eq_false_iff, ← circleShape_wf_eq_false_iff]
  constructor
  · intro h
    cases h with
    | opcode h => exact .inl ⟨_, rfl, h, rfl⟩
    | frameLength h => exact .inr (.inl ⟨_, rfl, h, rfl⟩)
    | shiftValue h => exact .inr (.inr (.inl ⟨_, _, rfl, h, rfl⟩))
    | @firstDrawable _ d first bad =>
      cases d with
      | line d => exact .inr (.inr (.inr (.inl ⟨d, first, bad, rfl⟩)))
      | rect d filled => exact .inr (.inr (.inr (.inr (.inl ⟨d, filled, first, bad, rfl⟩))))
      | circle d => exact .inr (.inr (.inr (.inr (.inr (.inl ⟨d, first, bad, rfl⟩)))))
    | otherDrawable accepted bad => exact .inr (.inr (.inr (.inr (.inr (.inr ⟨_, _, rfl, accepted, bad, rfl⟩)))))
  · rintro (⟨op, rfl, h, rfl⟩ | ⟨w, rfl, h, rfl⟩ | ⟨n, v, rfl, h, rfl⟩ | ⟨d, first, bad, rfl⟩ |
      ⟨d, filled, first, bad, rfl⟩ | ⟨d, first, bad, rfl⟩ | ⟨d, o, rfl, accepted, bad, rfl⟩)
    · exact .opcode h
    · exact .frameLength h
    · exact .shiftValue h
    · exact .firstDrawable first bad
    · exact .firstDrawable first bad
    · exact .firstDrawable first bad
    · exact .otherDrawable accepted bad

/-- Settles O50: a call that is not refused answers a next state or a listed fault, and the scope and the width rule out
each of those. -/
theorem everyOtherCallCompletes : Obligations.EveryOtherCallCompletes := by
  intro i s accepted hopens hend hshift
  obtain ⟨f, hf⟩ | completes := fault_or_next_of_accepted accepted s
  · exfalso
    cases hf with
    | nested opens active => cases active.symm.trans (hopens opens)
    | noScope hi idle => cases idle.symm.trans (hend hi)
    | shiftOutside hi _ _ idle => cases idle.symm.trans (hshift _ _ hi).1
    | shiftWidth hi _ _ _ width =>
      obtain ⟨-, hn0, hn⟩ := hshift _ _ hi
      omega
  · exact completes

end Sys2Proof.Machine
end

section
/-! PROOFS. The driver's construction and the boot calls (70_reset_and_hazards.md R130 to R134; log 7): the state at reset,
the pins set up before the first transaction, and what `surface.init()` makes of any defined device. -/

namespace Sys2Proof.Machine

/-! ## The state at reset -/

theorem memRead_reset (y : Fin 24) : memRead y State.reset = Config.shadowInit y := Vector.getElem_ofFn y.isLt

theorem deviceInit_ram (y : Fin 24) : Device.init.ram[y] = .unknown := Vector.getElem_replicate y.isLt

/-- Settles O1: each field of the construction, the pins one by one and the two word arrays row by row. -/
theorem resetStateIsAsStated : Obligations.ResetStateIsAsStated := by
  refine ⟨rfl, rfl, rfl, fun p => ?levels, fun p => ?dirs, memRead_reset,
    ⟨Device.init, rfl, rfl, rfl, rfl, rfl, rfl, rfl, deviceInit_ram, rfl⟩, rfl, rfl, rfl⟩
  case levels => cases p <;> rfl
  case dirs => cases p <;> rfl

/-! ## Pin setup before the first transaction -/

/-- `cs` driven high by the host begins no transaction: the boot check changes `boot` alone (R133; log 7). -/
theorem watchBoot_cs_high (s : State) : ∃ b, watchBoot (.cs, true) s = { s with boot := b } := by
  cases hboot : s.boot with
  | waiting =>
    have hopens : (Pin.cs, true) ≠ (.cs, false) := by decide
    exact ⟨s.boot, by rw [watchBoot_waiting _ s hboot, if_neg hopens]⟩
  | opening ok => exact ⟨.waiting, by rw [watchBoot_opening _ ok s hboot, if_pos rfl]⟩
  | decided => exact ⟨s.boot, watchBoot_decided _ s hboot⟩

/-- With no frame open, `cs` driven high by the host raises `cs` and leaves the receiver and the directions as they were
(R43, R60, R103). -/
theorem applyPinGroup_cs_high {s : State} (closed : s.openFrame = none) :
    (applyPinGroup [.cs] (.write true) s).levels.cs = true ∧
    (applyPinGroup [.cs] (.write true) s).rx = s.rx ∧
    (applyPinGroup [.cs] (.write true) s).dirs = s.dirs := by
  obtain ⟨b, hwatch⟩ := watchBoot_cs_high s
  have hclosed : State.openFrame { s with boot := b } = none := closed
  rw [applyPinGroup_singleton_write, hwatch]
  exact ⟨rfl, by rw [pinWrite_cs_high_rx, hclosed, Option.elim_none], rfl⟩

/-- What a transaction of the driver needs to reach the device `d` (R61, R103, R133). -/
structure ReachesDevice (d : Device) (s : State) : Prop where
  idle : s.txn = .idle
  high : s.levels.cs = true
  boot : bootHolds s = true
  defined : s.rx = .defined d

/-- Boot steps 2 to 4: the pins made outputs, `cs` high, the driver constructed (R133). -/
theorem execAll_pinSetup {s : State} {d : Device} (defined : s.rx = .defined d) (closed : s.openFrame = none) :
    ∃ t, (∀ rest, execAll (.pinGroupOp [.data, .wr, .rd, .cs] .setDirectionOutput ::
        .pinGroupOp [.data, .wr, .rd, .cs] .flushDirection :: .pinGroupOp [.cs] (.write true) :: .constructDriver :: rest)
        s = execAll rest t) ∧ ReachesDevice d t := by
  obtain ⟨outputs, hset, houtputs, hdirs⟩ :=
    exec_pinGroupOp_of_setDirection (op := .setDirectionOutput) (fun _ _ => rfl) [.data, .wr, .rd, .cs] s
  have hcommit : exec (.pinGroupOp [.data, .wr, .rd, .cs] .flushDirection) outputs = .next outputs :=
    exec_pinGroupOp_of_commit (fun _ _ => rfl) _ outputs
  have houtput : ∀ p, outputs.dirs.get p = .output := fun p => by
    rw [hdirs, if_pos (by cases p <;> decide)]
  obtain ⟨hhigh, hrx, hkept⟩ := applyPinGroup_cs_high (s := outputs) (by rw [houtputs]; exact closed)
  refine ⟨{ setFrame (Vector.ofFn Config.shadowInit) (applyPinGroup [.cs] (.write true) outputs) with txn := .idle },
    fun rest => ?calls, ⟨rfl, hhigh, bootHolds_of_bootMet ((bootMet_iff _).mpr ⟨hhigh, fun p => ?dirs⟩), ?rx⟩⟩
  case calls =>
    rw [execAll, hset, andThen_next, execAll, hcommit, andThen_next]
    rfl
  case dirs => exact (congrArg (·.get p) hkept).trans (houtput p)
  case rx => exact hrx.trans (by rw [houtputs]; exact defined)

/-! ## The frames of `surface.init()` at the receiver -/

/-- Frames sent one after another reach the receiver one after another, each whole (R43, R103). -/
theorem afterFrames_rx (frames : List Bits) {s : State} (high : s.levels.cs = true) (boot : bootHolds s = true) :
    (afterFrames frames s).rx = frames.foldl (fun r bits => r.receive bits) s.rx := by
  induction frames generalizing s with
  | nil => rfl
  | cons bits frames ih =>
    have hheld : heldBits s = [] := if_pos high
    have hrx : (afterFrame bits s).rx = s.rx.receive bits := by
      rw [State.rx, afterFrame_rx, rxAfterFrame, if_pos boot, hheld, List.nil_append]
    rw [afterFrames_cons, ih rfl rfl, hrx, List.foldl_cons]

theorem receive_cmdFrame (op : BitVec 8) (d : Device) :
    (Receiver.defined d).receive (cmdFrame op.toNat) = .defined (rxCommand op d) := rxFrame_cmdFrame op d

/-- A RAM write of the blank frame leaves an enabled device with every row known to be zero (R113). -/
theorem receive_blank {d : Device} (enabled : d.sysEn = .known true) :
    (Receiver.defined d).receive (wramFrame 0 blank.toList []) =
      .defined { d with ram := Vector.replicate 24 (.known 0x0000), ptr := none } := by
  have hrows : blank.map (guarded d) = Vector.replicate 24 (.known 0x0000) := by
    rw [blank, Vector.map_replicate, guarded, if_pos enabled]
  calc (Receiver.defined d).receive (wramFrame 0 blank.toList [])
      = rxWrite 0 blank.toList [] d := rxFrame_wramFrame 0 blank.toList [] (by decide) d
    _ = .defined { d with ram := Vector.replicate 24 (.known 0x0000), ptr := none } := by rw [rxWrite_rows, hrows]

/-- The device as R134 tabulates it after the boot sequence. -/
def initialDevice : Device where
  sysEn := .known true
  ledOn := .known true
  blink := .known .off
  clockMode := .known .master
  comOption := .known 0x24
  brightness := .known 15
  ram := Vector.replicate 24 (.known 0x0000)
  ptr := none

/-- The frames of `surface.init()` overwrite every field of the device: SYS_EN first, so that the guard lets every later
command and row through (R72, R85, R112, R113). -/
theorem foldl_receive_surfaceInit (d : Device) :
    (initFrames ++ [cmdFrame 0xAF]).foldl (fun (r : Receiver) bits => r.receive bits) (.defined d) =
      .defined initialDevice := by
  have sysEn d : (Receiver.defined d).receive (cmdFrame 0x01) = .defined (rxSysEn d) := receive_cmdFrame 0x01 d
  have ledOn d : (Receiver.defined d).receive (cmdFrame 0x03) = .defined (rxLedOn d) := receive_cmdFrame 0x03 d
  have blinkOff d : (Receiver.defined d).receive (cmdFrame 0x08) = .defined (rxBlinkOff d) := receive_cmdFrame 0x08 d
  have master d : (Receiver.defined d).receive (cmdFrame 0x18) = .defined (rxMasterMode d) := receive_cmdFrame 0x18 d
  have com d : (Receiver.defined d).receive (cmdFrame 0x24) = .defined (rxComOption d) := receive_cmdFrame 0x24 d
  have bright d : (Receiver.defined d).receive (cmdFrame 0xAF) = .defined (rxBrightness 15 d) := receive_cmdFrame 0xAF d
  simp only [initFrames, List.cons_append, List.nil_append, List.foldl_cons, List.foldl_nil]
  rw [sysEn, ledOn, blinkOff, master, com, receive_blank rfl, bright]
  rfl

/-- A device as R134 tabulates it shows a dark panel (R115). -/
theorem lit_initialDevice (x : Fin 16) (y : Fin 24) : (Receiver.defined initialDevice).lit x y = .known false := by
  have hrow : initialDevice.ram[y] = .known 0x0000 := Vector.getElem_replicate y.isLt
  rw [lit_eq_ram rfl rfl rfl rfl rfl x y hrow, BitVec.ofNat_eq_ofNat, BitVec.getLsbD_zero]

/-- Settles O47: the pin setup lets the frames of `surface.init()` reach the device, whatever it was, and these set each
of its fields. -/
theorem bootSequenceLeavesTheInitialImage : Obligations.BootSequenceLeavesTheInitialImage := by
  intro s d defined closed
  obtain ⟨ready, hsetup, hready⟩ := execAll_pinSetup defined closed
  have hrx : (afterFrames (initFrames ++ [cmdFrame 0xAF]) ready).rx = .defined initialDevice := by
    rw [afterFrames_rx _ hready.high hready.boot, hready.defined, foldl_receive_surfaceInit]
  refine ⟨setFrame blank (afterFrames (initFrames ++ [cmdFrame 0xAF]) ready), ?calls,
    (afterFrames_txn _ ready).trans hready.idle, fun y => memRead_setFrame_blank y _, hrx, fun x y => ?dark⟩
  case calls => rw [hsetup, execAll, exec, execSurfaceInit_idle ready hready.idle, andThen_next, execAll]
  case dark => exact (congrArg (·.lit x y) hrx).trans (lit_initialDevice x y)

end Sys2Proof.Machine
end

section
/-! PROOFS. The shadow-only calls (70_reset_and_hazards.md R137; 43_surface.md R87, R89; 44_rasterizers.md R99, R100): one
that is not refused completes, and changes the shadow frame alone. -/

namespace Sys2Proof.Machine

theorem onlyFrame_surfaceWriteOp (p : Point) (c : Color) (s : State) : OnlyFrame s (surfaceWriteOp p c s) := by
  cases c with
  | off => exact OnlyFrame.refl s
  | lit code => exact onlyFrame_updatePixel (fun w => w ||| (1#16 <<< p.x.toNat)) p.x p.y s

/-- A shadow-only call with operands in their domain completes, whatever the scope, with a new shadow frame and nothing
else (R118, R137). -/
theorem exists_onlyFrame_of_shadowOnly {i : Instr} (shadow : ShadowOnly i) (accepted : ¬ OperandRefused i) (s : State) :
    ∃ t, exec i s = .next t ∧ OnlyFrame s t := by
  cases i with
  | setPixel x y => exact ⟨_, rfl, onlyFrame_updatePixel _ x y s⟩
  | clearPixel x y => exact ⟨_, rfl, onlyFrame_updatePixel _ x y s⟩
  | replaceFrame w =>
    obtain ⟨t, hexec, honly, -⟩ := (replaceFrameTakesExactly24Words s w).1 (not_not.mp accepted)
    exact ⟨t, hexec, honly⟩
  | surfaceWrite p c => exact ⟨_, rfl, onlyFrame_surfaceWriteOp p c s⟩
  | surfaceClear => exact ⟨_, exec_surfaceClear s, onlyFrame_setFrame blank s⟩
  | lineDraw d => exact ⟨_, exec_lineDraw ((lineShape_wf_iff d).mpr (not_not.mp accepted)) s, (draws_plotAll _ s).1⟩
  | rectDraw d => exact ⟨_, exec_rectDraw ((rectShape_wf_iff d).mpr (not_not.mp accepted)) s, (draws_plotAll _ s).1⟩
  | rectFill d => exact ⟨_, exec_rectFill ((rectShape_wf_iff d).mpr (not_not.mp accepted)) s, (draws_plotAll _ s).1⟩
  | circleDraw d => exact ⟨_, exec_circleDraw ((circleShape_wf_iff d).mpr (not_not.mp accepted)) s, (draws_plotAll _ s).1⟩
  | drawableCall c =>
    exact ⟨s, updateAndInteractDoNothing s c (Bool.not_eq_false _ ▸ accepted), OnlyFrame.refl s⟩
  | _ => exact shadow.elim

/-- Settles O60: a call that answers a next state was not refused, and a shadow-only call then changes the shadow frame
alone. -/
theorem shadowOnlyCallsEmitNothing : Obligations.ShadowOnlyCallsEmitNothing := by
  intro i s t shadow h
  have accepted : ¬ OperandRefused i := fun bad => by
    obtain ⟨r, hrefused⟩ := (refusalsAreExactlyOperandRefusals.1 i s).mpr bad
    rw [hrefused] at h
    cases h
  obtain ⟨u, hexec, honly⟩ := exists_onlyFrame_of_shadowOnly shadow accepted s
  obtain rfl := Host.Outcome.next.inj (hexec.symm.trans h)
  exact honly

end Sys2Proof.Machine
end
